-- ==== Sys2Proof/Word.lean ====
section
/-! DEFINITION. The words of the machine: u8, u16 and the 12-bit address immediate (spec 00_scope.md R8, 30_encoding.md R90). -/

namespace Sys2Proof

/-- A u8: a register, a timer, a memory byte, the immediate NN (R8, R22, R35). -/
abbrev Byte := BitVec 8

/-- A u16: I, PC, a stack entry, an opcode (R8, R26, R28, R31, R90). -/
abbrev Word := BitVec 16

/-- The 12-bit address immediate NNN (R90). -/
abbrev Addr := BitVec 12

/-- A register index: the nibble X or Y, all sixteen values of which name a register (R92). -/
abbrev Reg := Fin 16

end Sys2Proof
end

