-- ==== Sys2Proof/Config.lean ====
section
/-! DEFINITION. The implementation parameters of spec 00_scope.md R6 that the operations use, and the one free value of the machine: the injected random source. (The parameter FONT has its type here and its default in Machine/Font.lean; each state carries its own: log entry 1.) -/

namespace Sys2Proof.Config

/-- `MEM_SIZE`: 4096 bytes, addresses 0x000 to 0xFFF (R6, R60). -/
def memSize : Nat := 0x1000

/-- `FONT_SIZE`: 80 bytes from address 0x000 on (R6, R61). -/
abbrev fontSize : Nat := 80

/-- The values of the parameter `FONT`: any 80 bytes (R6, R62; log entry 1). -/
abbrev Font := Vector Byte fontSize

/-- `PROG_BASE`: 0x200, the start of the program window and the reset value of PC (R6, R61). -/
def progBase : Nat := 0x200

/-- `MAX_ROM`: the longest program `load` accepts, 3584 bytes (R6, R251). -/
def maxRom : Nat := 3584

/-- `FB_W`: the framebuffer's width in cells (R6, R37). -/
def fbWidth : Nat := 64

/-- `FB_H`: the framebuffer's height in cells (R6, R37). -/
def fbHeight : Nat := 32

/-- `next_byte`, the injected random-byte source of CXNN: the k-th byte it gives, counted from 0.
A FREE VALUE (R171, R261; log entry 2): it has no body, so a claim about it holds for every sequence of draws. -/
opaque nextByte : Nat → Byte

end Sys2Proof.Config
end

