-- ==== Sys2Proof/Syntax.lean ====
section
/-! DEFINITION. The 34 instructions, one constructor per row of spec/opcode_table.json, in its order (spec 30_encoding.md R93). Every operand has exactly the width of its field (R90, R91, R92), so each term is one encoding and each legal word one term. -/

namespace Sys2Proof

/-- The instruction set (R93): `x`, `y` are register indices, `nn` the byte and `nnn` the address immediate, `n` a row count. -/
inductive Instr where
  /-- `00E0` CLS: clear the screen (R210). -/
  | cls
  /-- `00EE` RET: return from a subroutine (R140). -/
  | ret
  /-- `1NNN` JP addr: jump (R141). -/
  | jp (nnn : Addr)
  /-- `2NNN` CALL addr: call a subroutine (R142). -/
  | call (nnn : Addr)
  /-- `3XNN` SE Vx, byte: skip if VX = NN (R144). -/
  | seImm (x : Reg) (nn : Byte)
  /-- `4XNN` SNE Vx, byte: skip if VX ≠ NN (R145). -/
  | sneImm (x : Reg) (nn : Byte)
  /-- `5XY0` SE Vx, Vy: skip if VX = VY (R146). -/
  | seReg (x y : Reg)
  /-- `6XNN` LD Vx, byte: VX := NN (R160). -/
  | ldImm (x : Reg) (nn : Byte)
  /-- `7XNN` ADD Vx, byte: VX := VX + NN, no flag (R161). -/
  | addImm (x : Reg) (nn : Byte)
  /-- `8XY0` LD Vx, Vy: VX := VY (R162). -/
  | ldReg (x y : Reg)
  /-- `8XY1` OR Vx, Vy (R163). -/
  | orReg (x y : Reg)
  /-- `8XY2` AND Vx, Vy (R164). -/
  | andReg (x y : Reg)
  /-- `8XY3` XOR Vx, Vy (R165). -/
  | xorReg (x y : Reg)
  /-- `8XY4` ADD Vx, Vy: with carry into VF (R166). -/
  | addReg (x y : Reg)
  /-- `8XY5` SUB Vx, Vy: VX − VY, VF = no borrow (R167). -/
  | sub (x y : Reg)
  /-- `8XY6` SHR Vx {, Vy}: VX >> 1, VF = old bit 0; Y is encoded and ignored (R168). -/
  | shr (x y : Reg)
  /-- `8XY7` SUBN Vx, Vy: VY − VX, VF = no borrow (R169). -/
  | subn (x y : Reg)
  /-- `8XYE` SHL Vx {, Vy}: VX << 1, VF = old bit 7; Y is encoded and ignored (R170). -/
  | shl (x y : Reg)
  /-- `9XY0` SNE Vx, Vy: skip if VX ≠ VY (R147). -/
  | sneReg (x y : Reg)
  /-- `ANNN` LD I, addr: I := NNN (R190). -/
  | ldI (nnn : Addr)
  /-- `BNNN` JP V0, addr: jump to NNN + V0 (R143). -/
  | jpV0 (nnn : Addr)
  /-- `CXNN` RND Vx, byte: VX := random byte AND NN (R171). -/
  | rnd (x : Reg) (nn : Byte)
  /-- `DXYN` DRW Vx, Vy, nibble: draw an N-row sprite (R211). -/
  | drw (x y : Reg) (n : Fin 16)
  /-- `EX9E` SKP Vx: skip if the key VX is pressed (R230). -/
  | skp (x : Reg)
  /-- `EXA1` SKNP Vx: skip if the key VX is not pressed (R231). -/
  | sknp (x : Reg)
  /-- `FX07` LD Vx, DT: VX := DT (R233). -/
  | ldVxDt (x : Reg)
  /-- `FX0A` LD Vx, K: wait for a key (R232). -/
  | ldVxK (x : Reg)
  /-- `FX15` LD DT, Vx: DT := VX (R234). -/
  | ldDtVx (x : Reg)
  /-- `FX18` LD ST, Vx: ST := VX (R235). -/
  | ldStVx (x : Reg)
  /-- `FX1E` ADD I, Vx: I := I + VX mod 2^16 (R191). -/
  | addIVx (x : Reg)
  /-- `FX29` LD F, Vx: I := 5 · VX (R192). -/
  | ldFVx (x : Reg)
  /-- `FX33` LD B, Vx: the decimal digits of VX to I, I+1, I+2 (R193). -/
  | ldBVx (x : Reg)
  /-- `FX55` LD [I], Vx: store V0 to VX at I (R194). -/
  | ldMemVx (x : Reg)
  /-- `FX65` LD Vx, [I]: load V0 to VX from I (R195). -/
  | ldVxMem (x : Reg)
  deriving DecidableEq, Repr

end Sys2Proof
end

