-- ==== Sys2Proof/WellFormed.lean ====
section
/-! DEFINITION. What is well formed. An `Instr` is well formed by its type: its operands have exactly their fields' widths. What can be ill formed is a WORD (it matches no row of the opcode table: spec 30_encoding.md R93, R95, R96) and a ROM (it is too long: 46_host_interface.md R251, R252). The opcode table stands here as data, apart from the decoder, so that the two can be held against each other. -/

namespace Sys2Proof

/-- One row of the opcode table: a word matches it when `op & mask = pattern` (R93). -/
structure OpcodeRow where
  mnemonic : String
  mask : Word
  pattern : Word
  deriving DecidableEq, Repr

/-- `op & mask = match` (R93): every fixed nibble agrees (R95). -/
def OpcodeRow.hits (r : OpcodeRow) (op : Word) : Bool := op &&& r.mask == r.pattern

/-- The row of R93 that an instruction stands in. -/
def Instr.row : Instr → OpcodeRow
  | .cls => ⟨"CLS", 0xFFFF, 0x00E0⟩
  | .ret => ⟨"RET", 0xFFFF, 0x00EE⟩
  | .jp _ => ⟨"JP", 0xF000, 0x1000⟩
  | .call _ => ⟨"CALL", 0xF000, 0x2000⟩
  | .seImm _ _ => ⟨"SE_IMM", 0xF000, 0x3000⟩
  | .sneImm _ _ => ⟨"SNE_IMM", 0xF000, 0x4000⟩
  | .seReg _ _ => ⟨"SE_REG", 0xF00F, 0x5000⟩
  | .ldImm _ _ => ⟨"LD_IMM", 0xF000, 0x6000⟩
  | .addImm _ _ => ⟨"ADD_IMM", 0xF000, 0x7000⟩
  | .ldReg _ _ => ⟨"LD_REG", 0xF00F, 0x8000⟩
  | .orReg _ _ => ⟨"OR", 0xF00F, 0x8001⟩
  | .andReg _ _ => ⟨"AND", 0xF00F, 0x8002⟩
  | .xorReg _ _ => ⟨"XOR", 0xF00F, 0x8003⟩
  | .addReg _ _ => ⟨"ADD_REG", 0xF00F, 0x8004⟩
  | .sub _ _ => ⟨"SUB", 0xF00F, 0x8005⟩
  | .shr _ _ => ⟨"SHR", 0xF00F, 0x8006⟩
  | .subn _ _ => ⟨"SUBN", 0xF00F, 0x8007⟩
  | .shl _ _ => ⟨"SHL", 0xF00F, 0x800E⟩
  | .sneReg _ _ => ⟨"SNE_REG", 0xF00F, 0x9000⟩
  | .ldI _ => ⟨"LD_I", 0xF000, 0xA000⟩
  | .jpV0 _ => ⟨"JP_V0", 0xF000, 0xB000⟩
  | .rnd _ _ => ⟨"RND", 0xF000, 0xC000⟩
  | .drw _ _ _ => ⟨"DRW", 0xF000, 0xD000⟩
  | .skp _ => ⟨"SKP", 0xF0FF, 0xE09E⟩
  | .sknp _ => ⟨"SKNP", 0xF0FF, 0xE0A1⟩
  | .ldVxDt _ => ⟨"LD_VX_DT", 0xF0FF, 0xF007⟩
  | .ldVxK _ => ⟨"LD_VX_K", 0xF0FF, 0xF00A⟩
  | .ldDtVx _ => ⟨"LD_DT_VX", 0xF0FF, 0xF015⟩
  | .ldStVx _ => ⟨"LD_ST_VX", 0xF0FF, 0xF018⟩
  | .addIVx _ => ⟨"ADD_I_VX", 0xF0FF, 0xF01E⟩
  | .ldFVx _ => ⟨"LD_F_VX", 0xF0FF, 0xF029⟩
  | .ldBVx _ => ⟨"LD_B_VX", 0xF0FF, 0xF033⟩
  | .ldMemVx _ => ⟨"LD_MEM_VX", 0xF0FF, 0xF055⟩
  | .ldVxMem _ => ⟨"LD_VX_MEM", 0xF0FF, 0xF065⟩

/-- The table of R93, its 34 rows in order: each row is that of an instruction with all operands 0. -/
def opcodeTable : List OpcodeRow :=
  [Instr.cls, .ret, .jp 0, .call 0, .seImm 0 0, .sneImm 0 0, .seReg 0 0, .ldImm 0 0, .addImm 0 0].map Instr.row
  ++ [Instr.ldReg 0 0, .orReg 0 0, .andReg 0 0, .xorReg 0 0, .addReg 0 0, .sub 0 0, .shr 0 0, .subn 0 0,
      .shl 0 0, .sneReg 0 0].map Instr.row
  ++ [Instr.ldI 0, .jpV0 0, .rnd 0 0, .drw 0 0 0, .skp 0, .sknp 0, .ldVxDt 0, .ldVxK 0, .ldDtVx 0, .ldStVx 0].map Instr.row
  ++ [Instr.addIVx 0, .ldFVx 0, .ldBVx 0, .ldMemVx 0, .ldVxMem 0].map Instr.row

/-- A word is legal when some row matches it; every other word is illegal (R93, R95, R97). -/
def legalWord (op : Word) : Bool := opcodeTable.any (·.hits op)

/-- A ROM that `load` accepts is at most 3584 bytes long (R251, R252). -/
def romFits (rom : List Byte) : Bool := rom.length ≤ Config.maxRom

end Sys2Proof
end

