-- ==== Sys2Proof/Decode.lean ====
section
/-! DEFINITION. The decoder, total on words and on bytes, and the encoder (spec 30_encoding.md R90 to R98, 40_tick_cycle.md R122, 20_memory.md R65). -/

namespace Sys2Proof

/-- Why bytes are no instruction. -/
inductive DecodeError where
  /-- the word matches no row of the opcode table (R95, R96) -/
  | unknownOpcode (op : Word)
  /-- fewer than the two bytes every instruction has (R90) -/
  | truncated
  deriving DecidableEq, Repr

/-- `hi ++ lo`: the byte at the lower address is the high byte (R8, R65). -/
def wordOfBytes (hi lo : Byte) : Word := hi ++ lo

/-- The byte of a word that memory holds at the lower address (R65). -/
def highByte (w : Word) : Byte := w.extractLsb' 8 8

/-- The byte of a word that memory holds at the higher address (R65). -/
def lowByte (w : Word) : Byte := w.extractLsb' 0 8

/-- The two bytes of a word as memory holds them, high byte first (R65). -/
def bytesOfWord (w : Word) : List Byte := [highByte w, lowByte w]

/-- d1 = op[15:12], the major opcode (R90). -/
def fieldD1 (op : Word) : BitVec 4 := op.extractLsb' 12 4
/-- X = d2 = op[11:8] (R90, R92). -/
def fieldX (op : Word) : Reg := (op.extractLsb' 8 4).toFin
/-- Y = d3 = op[7:4] (R90, R92). -/
def fieldY (op : Word) : Reg := (op.extractLsb' 4 4).toFin
/-- d4 = op[3:0], the sub-opcode of 5XY0, 8XYn and 9XY0 (R90). -/
def fieldD4 (op : Word) : BitVec 4 := op.extractLsb' 0 4
/-- N = op[3:0] as the row count of DXYN (R90, R91). -/
def fieldN (op : Word) : Fin 16 := (op.extractLsb' 0 4).toFin
/-- NN = op[7:0] (R90). -/
def fieldNN (op : Word) : Byte := op.extractLsb' 0 8
/-- NNN = op[11:0] (R90). -/
def fieldNNN (op : Word) : Addr := op.extractLsb' 0 12

/-- Family 0: only 0x00E0 and 0x00EE are instructions (R93, R96). -/
def decode0 (op : Word) : Except DecodeError Instr :=
  if op = 0x00E0 then .ok .cls else if op = 0x00EE then .ok .ret else .error (.unknownOpcode op)

/-- Families 5 and 9: the last nibble is 0 (R93, R95). -/
def decodeXY0 (op : Word) (i : Instr) : Except DecodeError Instr :=
  if fieldD4 op = 0 then .ok i else .error (.unknownOpcode op)

/-- Family 8: the last nibble is the operation (R93, R96). -/
def decode8 (op : Word) (x y : Reg) : Except DecodeError Instr :=
  match fieldD4 op with
  | 0x0 => .ok (.ldReg x y)
  | 0x1 => .ok (.orReg x y)
  | 0x2 => .ok (.andReg x y)
  | 0x3 => .ok (.xorReg x y)
  | 0x4 => .ok (.addReg x y)
  | 0x5 => .ok (.sub x y)
  | 0x6 => .ok (.shr x y)
  | 0x7 => .ok (.subn x y)
  | 0xE => .ok (.shl x y)
  | _ => .error (.unknownOpcode op)

/-- Family E: the last byte is the operation (R93, R96). -/
def decodeE (op : Word) (x : Reg) : Except DecodeError Instr :=
  match fieldNN op with
  | 0x9E => .ok (.skp x)
  | 0xA1 => .ok (.sknp x)
  | _ => .error (.unknownOpcode op)

/-- Family F: the last byte is the operation (R93, R96). -/
def decodeF (op : Word) (x : Reg) : Except DecodeError Instr :=
  match fieldNN op with
  | 0x07 => .ok (.ldVxDt x)
  | 0x0A => .ok (.ldVxK x)
  | 0x15 => .ok (.ldDtVx x)
  | 0x18 => .ok (.ldStVx x)
  | 0x1E => .ok (.addIVx x)
  | 0x29 => .ok (.ldFVx x)
  | 0x33 => .ok (.ldBVx x)
  | 0x55 => .ok (.ldMemVx x)
  | 0x65 => .ok (.ldVxMem x)
  | _ => .error (.unknownOpcode op)

/-- `decode(op)` (R93, R122): the nibble pattern selects the family, and a word is recognised only when all its
fixed nibbles match (R95); every other word is rejected by name with the whole word (R96). -/
def decodeWord (op : Word) : Except DecodeError Instr :=
  match fieldD1 op with
  | 0x0 => decode0 op
  | 0x1 => .ok (.jp (fieldNNN op))
  | 0x2 => .ok (.call (fieldNNN op))
  | 0x3 => .ok (.seImm (fieldX op) (fieldNN op))
  | 0x4 => .ok (.sneImm (fieldX op) (fieldNN op))
  | 0x5 => decodeXY0 op (.seReg (fieldX op) (fieldY op))
  | 0x6 => .ok (.ldImm (fieldX op) (fieldNN op))
  | 0x7 => .ok (.addImm (fieldX op) (fieldNN op))
  | 0x8 => decode8 op (fieldX op) (fieldY op)
  | 0x9 => decodeXY0 op (.sneReg (fieldX op) (fieldY op))
  | 0xA => .ok (.ldI (fieldNNN op))
  | 0xB => .ok (.jpV0 (fieldNNN op))
  | 0xC => .ok (.rnd (fieldX op) (fieldNN op))
  | 0xD => .ok (.drw (fieldX op) (fieldY op) (fieldN op))
  | 0xE => decodeE op (fieldX op)
  | 0xF => decodeF op (fieldX op)
  | _ => .error (.unknownOpcode op) -- no nibble is left: the sixteen families are all above

/-- The instruction at the head of a list of bytes, with the bytes after it: every instruction is exactly two bytes
(R90, R98), the first the high one (R65). -/
def decodeBytes : List Byte → Except DecodeError (Instr × List Byte)
  | hi :: lo :: rest =>
    match decodeWord (wordOfBytes hi lo) with
    | .ok i => .ok (i, rest)
    | .error e => .error e
  | _ => .error .truncated

/-- The word whose `nbits` low bits are `w` and whose other bits are 0: an instruction as spec/opcode_table.json numbers its bits. -/
def tableWord (nbits w : Nat) : Word := BitVec.ofNat 16 (w % 2 ^ nbits)

/-- What the decoder reads from an instruction numbered as spec/opcode_table.json numbers it: its word is laid out as
memory holds it (R65) and given to `decodeBytes`. -/
def decodeTableWord (nbits w : Nat) : Option Instr :=
  match decodeBytes (bytesOfWord (tableWord nbits w)) with
  | .ok (i, _) => some i
  | .error _ => none

/-- A word of the shape dNNN (R90). -/
def wordNNN (d : BitVec 4) (nnn : Addr) : Word := d ++ nnn
/-- A word of the shape dXNN (R90). -/
def wordXNN (d : BitVec 4) (x : Reg) (nn : Byte) : Word := d ++ BitVec.ofFin (w := 4) x ++ nn
/-- A word of the shape dXYN (R90). -/
def wordXYN (d : BitVec 4) (x y : Reg) (n : BitVec 4) : Word :=
  d ++ BitVec.ofFin (w := 4) x ++ BitVec.ofFin (w := 4) y ++ n

/-- The word of an instruction, from the patterns of R93. -/
def encode : Instr → Word
  | .cls => 0x00E0
  | .ret => 0x00EE
  | .jp nnn => wordNNN 0x1 nnn
  | .call nnn => wordNNN 0x2 nnn
  | .seImm x nn => wordXNN 0x3 x nn
  | .sneImm x nn => wordXNN 0x4 x nn
  | .seReg x y => wordXYN 0x5 x y 0x0
  | .ldImm x nn => wordXNN 0x6 x nn
  | .addImm x nn => wordXNN 0x7 x nn
  | .ldReg x y => wordXYN 0x8 x y 0x0
  | .orReg x y => wordXYN 0x8 x y 0x1
  | .andReg x y => wordXYN 0x8 x y 0x2
  | .xorReg x y => wordXYN 0x8 x y 0x3
  | .addReg x y => wordXYN 0x8 x y 0x4
  | .sub x y => wordXYN 0x8 x y 0x5
  | .shr x y => wordXYN 0x8 x y 0x6
  | .subn x y => wordXYN 0x8 x y 0x7
  | .shl x y => wordXYN 0x8 x y 0xE
  | .sneReg x y => wordXYN 0x9 x y 0x0
  | .ldI nnn => wordNNN 0xA nnn
  | .jpV0 nnn => wordNNN 0xB nnn
  | .rnd x nn => wordXNN 0xC x nn
  | .drw x y n => wordXYN 0xD x y (BitVec.ofFin n)
  | .skp x => wordXNN 0xE x 0x9E
  | .sknp x => wordXNN 0xE x 0xA1
  | .ldVxDt x => wordXNN 0xF x 0x07
  | .ldVxK x => wordXNN 0xF x 0x0A
  | .ldDtVx x => wordXNN 0xF x 0x15
  | .ldStVx x => wordXNN 0xF x 0x18
  | .addIVx x => wordXNN 0xF x 0x1E
  | .ldFVx x => wordXNN 0xF x 0x29
  | .ldBVx x => wordXNN 0xF x 0x33
  | .ldMemVx x => wordXNN 0xF x 0x55
  | .ldVxMem x => wordXNN 0xF x 0x65

/-- The bytes of an instruction as memory holds them (R65, R90). -/
def encodeBytes (i : Instr) : List Byte := bytesOfWord (encode i)

end Sys2Proof
end

