-- ==== Sys2Proof/Machine/Font.lean ====
section
/-! DEFINITION. The parameter FONT: its default, and the reset contents of memory for any font (spec 20_memory.md R61 to R63). -/

namespace Sys2Proof.Machine

/-- The default of the parameter `FONT`, glyph by glyph (R62; log entry 1): PRESUMED by the spec, from general knowledge. -/
def fontGlyphs : List (List Byte) :=
  [[0xF0, 0x90, 0x90, 0x90, 0xF0], [0x20, 0x60, 0x20, 0x20, 0x70], [0xF0, 0x10, 0xF0, 0x80, 0xF0], [0xF0, 0x10, 0xF0, 0x10, 0xF0]]
  ++ [[0x90, 0x90, 0xF0, 0x10, 0x10], [0xF0, 0x80, 0xF0, 0x10, 0xF0], [0xF0, 0x80, 0xF0, 0x90, 0xF0], [0xF0, 0x10, 0x20, 0x40, 0x40]]
  ++ [[0xF0, 0x90, 0xF0, 0x90, 0xF0], [0xF0, 0x90, 0xF0, 0x10, 0xF0], [0xF0, 0x90, 0xF0, 0x90, 0x90], [0xE0, 0x90, 0xE0, 0x90, 0xE0]]
  ++ [[0xF0, 0x80, 0x80, 0x80, 0xF0], [0xE0, 0x90, 0x90, 0x90, 0xE0], [0xF0, 0x80, 0xF0, 0x80, 0xF0], [0xF0, 0x80, 0xF0, 0x80, 0x80]]

/-- The default of `FONT` as its 80 bytes: glyph d stands at 5·d to 5·d + 4 (R62, R63). -/
def defaultFont : Config.Font := Vector.ofFn fun a => (fontGlyphs.getD (a.val / 5) []).getD (a.val % 5) 0

/-- The contents of memory after reset: the font at 0x000 to 0x04F and 0x00 elsewhere (R42, R61). -/
def resetByte (font : Config.Font) (a : Nat) : Byte := if h : a < Config.fontSize then font[a] else 0

end Sys2Proof.Machine
end

