-- ==== Sys2Proof/Machine/State.lean ====
section
/-! DEFINITION. The state of the core (spec 10_state.md R20 to R42), its errors (60_exceptions.md R270) and its reset (70_reset_and_hazards.md R300). -/

namespace Sys2Proof.Machine

/-- Main memory as plain data: the listed cells, addresses strictly rising, no cell equal to what an unlisted address
reads as (`Memory.wf`, Machine/Ops.lean). An unlisted address reads as its byte after reset
(`resetByte`, R42, R61). -/
abbrev Memory := List Host.Cell

/-- The framebuffer (R37): 64 × 32 one-bit cells, row y as the 64 bits of word y, cell (x, y) its bit x. The spec's
`fb[i]`, i = x + 64·y, is bit `i mod 64` of row `i div 64`. -/
abbrev Screen := Vector (BitVec 64) 32

/-- The architectural state (R20), the parameter FONT it was built with (log entry 1), and the model's own count of random
bytes drawn (log entry 2). -/
structure State where
  /-- `mem`, 4096 bytes (R38) -/
  mem : Memory
  /-- `V`, the sixteen general registers V0 to VF (R22) -/
  v : Vector Byte 16
  /-- `I`, the index register (R26) -/
  i : Word
  /-- `PC`, the program counter (R28) -/
  pc : Word
  /-- `SP`, the number of live stack entries, 0 to 16 (R31) -/
  sp : Fin 17
  /-- `stack`, sixteen return addresses (R31) -/
  stack : Vector Word 16
  /-- `DT`, the delay timer (R35) -/
  dt : Byte
  /-- `ST`, the sound timer (R35) -/
  st : Byte
  /-- `key`, true means pressed (R36) -/
  key : Vector Bool 16
  /-- `fb`, true means a lit pixel (R37) -/
  fb : Screen
  /-- THE MODEL'S OWN FIELD, not the spec's: how many bytes CXNN has drawn from `Config.nextByte` (log entry 2) -/
  draws : Nat
  /-- THE MODEL'S OWN FIELD, not the spec's: the parameter `FONT` (R6, R62) this core was constructed with. Nothing writes it;
  reset loads it into memory again (log entry 1) -/
  font : Config.Font
  deriving DecidableEq, Repr

/-- The errors of R270. Each is an error RESULT of one operation that leaves the state as it was before (R11, R277);
as an outcome of `step` it ends the run (R280). Each one is raised where the spec raises it, so each stop is the spec's own. -/
inductive Fault where
  /-- `LoadError::RomTooLarge`: raised by `load` on a ROM of more than 3584 bytes (R271), never by `step`. Safe: the spec's own error. -/
  | romTooLarge
  /-- `ExecError::UnknownOpcode(op)`: raised by the decode step of a tick on an illegal word (R272). Safe: the spec's own error. -/
  | unknownOpcode (op : Word)
  /-- `ExecError::StackOverflow`: raised by 2NNN with SP = 16 (R273). Safe: the spec's own error. -/
  | stackOverflow
  /-- `ExecError::StackUnderflow`: raised by 00EE with SP = 0 (R274). Safe: the spec's own error. -/
  | stackUnderflow
  /-- `ExecError::MemoryOutOfRange(a)`: raised by fetch, DXYN, FX33, FX55 and FX65 at the lowest address that is 0x1000 or more (R275).
  Safe: the spec's own error. -/
  | memoryOutOfRange (a : Word)
  /-- `ExecError::KeyIndexOutOfRange(k)`: raised by EX9E and EXA1 with k = VX ≥ 16 (R276). Safe: the spec's own error. -/
  | keyIndexOutOfRange (k : Byte)
  deriving DecidableEq, Repr

/-- Why the model gives an instruction no meaning. No instruction is refused. -/
inductive Refusal where
  /-- an instruction the model has no meaning for, by its mnemonic: raised by no arm of `exec`. Safe. -/
  | notModelled (mnemonic : String)
  deriving DecidableEq, Repr

/-- A newly constructed core for a font (R42, R302): memory lists nothing, so it reads as the font and zeros; PC is
0x200; everything else is zero, empty or false. `draws` is the model's own: DESIGN CHOICE 0 (log entry 2). -/
def State.constructed (font : Config.Font) : State where
  mem := []
  v := Vector.replicate 16 0
  i := 0
  pc := 0x200
  sp := 0
  stack := Vector.replicate 16 0
  dt := 0
  st := 0
  key := Vector.replicate 16 false
  fb := Vector.replicate 32 0
  draws := 0
  font := font

/-- The state after reset (R42, R300), with the default of the parameter `FONT` (R62, log entry 1). -/
def State.reset : State := State.constructed defaultFont

end Sys2Proof.Machine
end

