-- ==== Sys2Proof/Machine/Ops.lean ====
section
/-! DEFINITION. The shared operations over memory, registers, the stack, the framebuffer and the keypad, fetching, and raising an error (spec 00_scope.md R10, R11, 10_state.md, 20_memory.md, 44_display.md). -/

namespace Sys2Proof.Machine

/-! ## Raising an error (R11, R270, R277) -/

/-- `raise E`: the operation ends with the error and the state is what it was before (R11, R277). A fault carries no
state, so nothing the operation had computed survives it. This is the one place where an error is taken; there is no
handler it goes to and no return from it (R280). -/
def raise (e : Fault) : Host.Outcome State Fault Refusal := .fault e

/-- The numeric codes of R270. -/
def Fault.code : Fault → Nat
  | .romTooLarge => 1
  | .unknownOpcode _ => 2
  | .stackOverflow => 3
  | .stackUnderflow => 4
  | .memoryOutOfRange _ => 5
  | .keyIndexOutOfRange _ => 6

/-! ## Memory (R60 to R73) -/

/-- The cell to list for byte b at address a: none where b is what the address reads as anyway. -/
def cellFor (font : Config.Font) (a : Nat) (b : Byte) : List Host.Cell := if b = resetByte font a then [] else [(a, b)]

/-- The byte at an address (R71), without the range check. An unlisted address reads as its byte after reset (R42, R61). -/
def Memory.get (font : Config.Font) : Memory → Nat → Byte
  | [], a => resetByte font a
  | (k, b) :: rest, a => if k = a then b else Memory.get font rest a

/-- The memory with byte b at address a (R71), without the range check; keeps the canonical form. -/
def Memory.put (font : Config.Font) : Memory → Nat → Byte → Memory
  | [], a, b => cellFor font a b
  | (k, c) :: rest, a, b =>
    if a < k then cellFor font a b ++ (k, c) :: rest
    else if a = k then cellFor font a b ++ rest
    else (k, c) :: Memory.put font rest a b

/-- The canonical form: addresses strictly rising and inside the 4096 bytes, and no cell equal to what its address reads as unlisted. -/
abbrev Memory.wf (font : Config.Font) (m : Memory) : Prop :=
  m.Pairwise (fun c d => c.1 < d.1) ∧ ∀ c ∈ m, c.1 < Config.memSize ∧ c.2 ≠ resetByte font c.1

/-- The error of an access at address a (R68): the payload is a truncated to 16 bits. -/
def outOfRange (a : Nat) : Fault := .memoryOutOfRange (BitVec.ofNat 16 a)

/-- `MemRead(a, 1)` (R68). -/
def memRead (font : Config.Font) (m : Memory) (a : Nat) : Except Fault Byte :=
  if a ≥ Config.memSize then .error (outOfRange a) else .ok (Memory.get font m a)

/-- `MemWrite(a, 1, b)` (R68). -/
def memWrite (font : Config.Font) (m : Memory) (a : Nat) (b : Byte) : Except Fault Memory :=
  if a ≥ Config.memSize then .error (outOfRange a) else .ok (Memory.put font m a b)

/-- n one-byte reads at a, a+1, …, in this order (R69): the first that is out of range is the error. -/
def readBlock (font : Config.Font) (m : Memory) (a : Nat) : Nat → Except Fault (List Byte)
  | 0 => .ok []
  | n + 1 =>
    match memRead font m a with
    | .error e => .error e
    | .ok b =>
      match readBlock font m (a + 1) n with
      | .error e => .error e
      | .ok bs => .ok (b :: bs)

/-- One-byte writes of the listed bytes at a, a+1, …, in this order (R69): the first that is out of range is the error,
and then nothing is written (R11). -/
def writeBlock (font : Config.Font) (m : Memory) (a : Nat) : List Byte → Except Fault Memory
  | [] => .ok m
  | b :: bs =>
    match memWrite font m a b with
    | .error e => .error e
    | .ok m' => writeBlock font m' (a + 1) bs

/-- `MemRead(a, 1)` from the memory of a state (R10, R68). -/
def State.readByte (s : State) (a : Nat) : Except Fault Byte := memRead s.font s.mem a

/-- The listed bytes written to the memory of a state from address a on, or no byte of them (R11, R68, R69). -/
def State.writeBytes (s : State) (a : Nat) (bs : List Byte) : Except Fault State :=
  match writeBlock s.font s.mem a bs with
  | .error e => .error e
  | .ok m => .ok { s with mem := m }

/-- The memory of a state is in its canonical form. -/
abbrev State.MemWf (s : State) : Prop := Memory.wf s.font s.mem

/-! ## Fetch (R65, R121) -/

/-- The opcode at PC: the byte at PC, then the byte at PC + 1, big-endian (R65, R69, R121). -/
def fetch (s : State) : Except Fault Word :=
  match s.readByte s.pc.toNat with
  | .error e => .error e
  | .ok hi =>
    match s.readByte (s.pc.toNat + 1) with
    | .error e => .error e
    | .ok lo => .ok (wordOfBytes hi lo)

/-- The advance of PC by 2, modulo 2^16, that ends a fetch (R121, R125). -/
def advancePc (s : State) : State := { s with pc := s.pc + 2 }

/-! ## Registers (R22, R26, R28, R35) -/

/-- V[x] := b (R22). -/
def State.setV (s : State) (x : Reg) (b : Byte) : State := { s with v := s.v.set x b }

/-- The result to V[x] and after it the flag to VF, so that VF holds the flag when x = 0xF (R12, R173). -/
def State.setVThenFlag (s : State) (x : Reg) (result flag : Byte) : State := (s.setV x result).setV 0xF flag

/-- I := w (R26). -/
def State.setI (s : State) (w : Word) : State := { s with i := w }

/-- PC := w (R28): a target is not checked when it is written (R149). -/
def State.setPc (s : State) (w : Word) : State := { s with pc := w }

/-- A skip advances PC by 2 more, past one word it does not look at (R148). -/
def State.skipIf (s : State) (taken : Bool) : State := s.setPc (if taken then s.pc + 2 else s.pc)

/-- V0, V1, … take the listed bytes from register k on (R195); a byte past VF has no register and is dropped. -/
def setBlock (v : Vector Byte 16) (k : Nat) : List Byte → Vector Byte 16
  | [] => v
  | b :: bs => setBlock (v.setIfInBounds k b) (k + 1) bs

/-- V0 to VX as a list, V0 first (R194). -/
def takeBlock (v : Vector Byte 16) (x : Reg) : List Byte := v.toList.take (x.val + 1)

/-! ## Placing a word where the next fetch finds it (for `State.withFetchWord`) -/

/-- The state itself where both bytes of a fetch at PC are in range (R121), else with PC at 0x200, the entry point (R61). -/
def fetchPoint (s : State) : State :=
  if s.pc.toNat + 1 < Config.memSize then s else s.setPc (BitVec.ofNat 16 Config.progBase)

/-- The word's two bytes stored at PC and PC + 1, high byte first (R65). -/
def placeWord (s : State) (w : Word) : State :=
  { s with mem := Memory.put s.font (Memory.put s.font s.mem s.pc.toNat (highByte w)) (s.pc.toNat + 1) (lowByte w) }

/-! ## The call stack (R31, R32) -/

/-- push(w) (R32): the check comes first. -/
def push (s : State) (w : Word) : Except Fault State :=
  if h : s.sp.val < 16 then
    .ok { s with stack := s.stack.set s.sp.val w, sp := ⟨s.sp.val + 1, Nat.succ_lt_succ h⟩ }
  else .error .stackOverflow

/-- pop() (R32): the popped word and the state after; the entry is not cleared. -/
def pop (s : State) : Except Fault (Word × State) :=
  if h : s.sp.val = 0 then .error .stackUnderflow
  else .ok (s.stack[s.sp.val - 1]'(by have := s.sp.isLt; omega),
    { s with sp := ⟨s.sp.val - 1, by have := s.sp.isLt; omega⟩ })

/-! ## The random source (R129, R171, R261) -/

/-- draw_byte(): one byte from the injected source, and the count of draws moves on (log entry 2). -/
def drawByte (s : State) : Byte × State := (Config.nextByte s.draws, { s with draws := s.draws + 1 })

/-! ## The framebuffer (R37, R212, R213) -/

/-- A cleared framebuffer (R210, R300). -/
def clearScreen : Screen := Vector.replicate 32 0

/-- The cell at column x and row y, each taken modulo the screen's size (R212). -/
def Screen.cell (fb : Screen) (x y : Nat) : Bool :=
  (fb[y % Config.fbHeight]'(Nat.mod_lt _ (by decide))).getLsbD (x % Config.fbWidth)

/-- The spec's `fb[k]` with k = x + 64·y (R37). -/
def Screen.index (fb : Screen) (k : Nat) : Bool := fb.cell (k % Config.fbWidth) (k / Config.fbWidth)

/-- The framebuffer with the cell at column x and row y inverted, each taken modulo the screen's size (R212). -/
def Screen.toggle (fb : Screen) (x y : Nat) : Screen :=
  fb.set (y % Config.fbHeight)
    (fb[y % Config.fbHeight]'(Nat.mod_lt _ (by decide)) ^^^ BitVec.twoPow 64 (x % Config.fbWidth))
    (Nat.mod_lt _ (by decide))

/-- What a draw works on: the framebuffer, and whether a cell has gone from true to false so far (R211, R213). -/
structure Canvas where
  fb : Screen
  collided : Bool
  deriving DecidableEq, Repr

/-- One set sprite bit: the cell is toggled, and a lit cell counts as a collision (R211, R213). -/
def Canvas.hit (c : Canvas) (x y : Nat) : Canvas := ⟨c.fb.toggle x y, c.collided || c.fb.cell x y⟩

/-- The pixel at column offset c of a sprite byte is its bit 7 − c: the most significant bit is leftmost (R212). -/
def spritePixel (row : Byte) (c : Nat) : Bool := row.getLsbD (7 - c)

/-- Columns 0 to 7 of one sprite row at (x0, y) (R211). -/
def Canvas.drawRow (cv : Canvas) (x0 y : Nat) (row : Byte) : Canvas :=
  (List.range 8).foldl (fun cv c => if spritePixel row c then cv.hit (x0 + c) y else cv) cv

/-- The sprite rows from (x0, y) downwards (R211). -/
def Canvas.drawRows (cv : Canvas) (x0 y : Nat) : List Byte → Canvas
  | [] => cv
  | row :: rows => (cv.drawRow x0 y row).drawRows x0 (y + 1) rows

/-! ## The keypad (R36, R232) -/

/-- The lowest-indexed pressed key, if any is pressed (R232). -/
def lowestKey (key : Vector Bool 16) : Option Reg := (List.finRange 16).find? (fun k => key[k])

end Sys2Proof.Machine
end

