-- ==== Sys2Proof/Machine/Flags.lean ====
section
/-! DEFINITION. The values the flag VF takes (spec 10_state.md R40, 00_scope.md R9). -/

namespace Sys2Proof.Machine

/-- A flag as VF holds it: 1 or 0 (R40). -/
def flagByte (b : Bool) : Byte := if b then 1 else 0

/-- The carry of a + b: 1 when the exact sum is above 255 (R9, R166). -/
def carryFlag (a b : Byte) : Byte := flagByte (decide (a.toNat + b.toNat > 255))

/-- "No borrow" of a − b: 1 when a ≥ b (R9, R167, R169). -/
def noBorrowFlag (a b : Byte) : Byte := flagByte (decide (a.toNat ≥ b.toNat))

/-- Bit 0 of the value shifted right (R168). -/
def lsbFlag (a : Byte) : Byte := flagByte (a.getLsbD 0)

/-- Bit 7 of the value shifted left (R170). -/
def msbFlag (a : Byte) : Byte := flagByte (a.getLsbD 7)

/-- Whether a draw collided (R211, R213). -/
def collisionFlag (cv : Canvas) : Byte := flagByte cv.collided

end Sys2Proof.Machine
end

