-- ==== Sys2Proof/Machine/Operands.lean ====
section
/-! DEFINITION. The operand forms: a register, the immediates zero-extended, the I-relative blocks and the key index (spec 30_encoding.md R91, R92, 43_index_memory.md R196). -/

namespace Sys2Proof.Machine

/-- V[x] (R92). -/
def State.reg (s : State) (x : Reg) : Byte := s.v[x]

/-- `zext_16` of a byte (R8). -/
def zextByte (b : Byte) : Word := b.setWidth 16

/-- `zext_16(NNN)` (R91). -/
def zextAddr (nnn : Addr) : Word := nnn.setWidth 16

/-- The effective address I + k, an unbounded integer (R68, R196). -/
def State.indexed (s : State) (k : Nat) : Nat := s.i.toNat + k

/-- n bytes read at I, I+1, … (R69, R196). -/
def State.readAtI (s : State) (n : Nat) : Except Fault (List Byte) := readBlock s.font s.mem (s.indexed 0) n

/-- The listed bytes written at I, I+1, … (R69, R196). -/
def State.writeAtI (s : State) (bs : List Byte) : Except Fault State := s.writeBytes (s.indexed 0) bs

/-- The value of a register as a key index: below 16, or an error (R92, R230, R231). -/
def keyIndex (b : Byte) : Except Fault Reg :=
  if h : b.toNat < 16 then .ok ⟨b.toNat, h⟩ else .error (.keyIndexOutOfRange b)

/-- The decimal digits of a byte, hundreds first (R193). -/
def decimalDigits (b : Byte) : List Byte :=
  [BitVec.ofNat 8 (b.toNat / 100), BitVec.ofNat 8 (b.toNat / 10 % 10), BitVec.ofNat 8 (b.toNat % 10)]

end Sys2Proof.Machine
end

