-- ==== Sys2Proof/Machine/Alu.lean ====
section
/-! DEFINITION. Register loads, arithmetic, logic and random (spec 42_alu.md R160 to R173). Sources are read before any write, and the flag is written after the result (R173). -/

namespace Sys2Proof.Machine

/-- `6XNN` LD Vx, byte (R160). -/
def execLdImm (x : Reg) (nn : Byte) (s : State) : Host.Outcome State Fault Refusal := .next (s.setV x nn)

/-- `7XNN` ADD Vx, byte (R161): no flag. -/
def execAddImm (x : Reg) (nn : Byte) (s : State) : Host.Outcome State Fault Refusal := .next (s.setV x (s.reg x + nn))

/-- `8XY0` LD Vx, Vy (R162). -/
def execLdReg (x y : Reg) (s : State) : Host.Outcome State Fault Refusal := .next (s.setV x (s.reg y))

/-- `8XY1` OR Vx, Vy (R163): no flag. -/
def execOrReg (x y : Reg) (s : State) : Host.Outcome State Fault Refusal := .next (s.setV x (s.reg x ||| s.reg y))

/-- `8XY2` AND Vx, Vy (R164): no flag. -/
def execAndReg (x y : Reg) (s : State) : Host.Outcome State Fault Refusal := .next (s.setV x (s.reg x &&& s.reg y))

/-- `8XY3` XOR Vx, Vy (R165): no flag. -/
def execXorReg (x y : Reg) (s : State) : Host.Outcome State Fault Refusal := .next (s.setV x (s.reg x ^^^ s.reg y))

/-- `8XY4` ADD Vx, Vy (R166). -/
def execAddReg (x y : Reg) (s : State) : Host.Outcome State Fault Refusal :=
  .next (s.setVThenFlag x (s.reg x + s.reg y) (carryFlag (s.reg x) (s.reg y)))

/-- `8XY5` SUB Vx, Vy (R167). -/
def execSub (x y : Reg) (s : State) : Host.Outcome State Fault Refusal :=
  .next (s.setVThenFlag x (s.reg x - s.reg y) (noBorrowFlag (s.reg x) (s.reg y)))

/-- `8XY6` SHR Vx {, Vy} (R168): shifts VX, logically; VY is ignored. -/
def execShr (x _y : Reg) (s : State) : Host.Outcome State Fault Refusal :=
  .next (s.setVThenFlag x (s.reg x >>> 1) (lsbFlag (s.reg x)))

/-- `8XY7` SUBN Vx, Vy (R169). -/
def execSubn (x y : Reg) (s : State) : Host.Outcome State Fault Refusal :=
  .next (s.setVThenFlag x (s.reg y - s.reg x) (noBorrowFlag (s.reg y) (s.reg x)))

/-- `8XYE` SHL Vx {, Vy} (R170): shifts VX; VY is ignored. -/
def execShl (x _y : Reg) (s : State) : Host.Outcome State Fault Refusal :=
  .next (s.setVThenFlag x (s.reg x <<< 1) (msbFlag (s.reg x)))

/-- `CXNN` RND Vx, byte (R171): exactly one draw. -/
def execRnd (x : Reg) (nn : Byte) (s : State) : Host.Outcome State Fault Refusal :=
  match drawByte s with
  | (r, t) => .next (t.setV x (r &&& nn))

end Sys2Proof.Machine
end

