-- ==== Sys2Proof/Machine/Control.lean ====
section
/-! DEFINITION. Control transfer (spec 41_control_flow.md R140 to R150). Each meaning starts with PC at the fetch address plus 2 (R125). -/

namespace Sys2Proof.Machine

/-- `00EE` RET (R140). -/
def execRet (s : State) : Host.Outcome State Fault Refusal :=
  match pop s with
  | .error e => raise e
  | .ok (w, t) => .next (t.setPc w)

/-- `1NNN` JP addr (R141). -/
def execJp (nnn : Addr) (s : State) : Host.Outcome State Fault Refusal := .next (s.setPc (zextAddr nnn))

/-- `2NNN` CALL addr (R142): pushes the address after the CALL. -/
def execCall (nnn : Addr) (s : State) : Host.Outcome State Fault Refusal :=
  match push s s.pc with
  | .error e => raise e
  | .ok t => .next (t.setPc (zextAddr nnn))

/-- `BNNN` JP V0, addr (R143): always V0, whatever the X nibble holds. -/
def execJpV0 (nnn : Addr) (s : State) : Host.Outcome State Fault Refusal :=
  .next (s.setPc (zextAddr nnn + zextByte (s.reg 0)))

/-- `3XNN` SE Vx, byte (R144). -/
def execSeImm (x : Reg) (nn : Byte) (s : State) : Host.Outcome State Fault Refusal :=
  .next (s.skipIf (s.reg x == nn))

/-- `4XNN` SNE Vx, byte (R145). -/
def execSneImm (x : Reg) (nn : Byte) (s : State) : Host.Outcome State Fault Refusal :=
  .next (s.skipIf (s.reg x != nn))

/-- `5XY0` SE Vx, Vy (R146). -/
def execSeReg (x y : Reg) (s : State) : Host.Outcome State Fault Refusal :=
  .next (s.skipIf (s.reg x == s.reg y))

/-- `9XY0` SNE Vx, Vy (R147). -/
def execSneReg (x y : Reg) (s : State) : Host.Outcome State Fault Refusal :=
  .next (s.skipIf (s.reg x != s.reg y))

end Sys2Proof.Machine
end

