-- ==== Sys2Proof/Machine/Display.lean ====
section
/-! DEFINITION. The framebuffer instructions (spec 44_display.md R210 to R214). -/

namespace Sys2Proof.Machine

/-- `00E0` CLS (R210). -/
def execCls (s : State) : Host.Outcome State Fault Refusal := .next { s with fb := clearScreen }

/-- `DXYN` DRW Vx, Vy, nibble (R211): the coordinates and all the rows are read first, then the cells are toggled, then VF is written. -/
def execDrw (x y : Reg) (n : Fin 16) (s : State) : Host.Outcome State Fault Refusal :=
  match s.readAtI n.val with
  | .error e => raise e
  | .ok rows =>
    let cv := (Canvas.mk s.fb false).drawRows (s.reg x).toNat (s.reg y).toNat rows
    .next (State.setV { s with fb := cv.fb } 0xF (collisionFlag cv))

end Sys2Proof.Machine
end

