-- ==== Sys2Proof/Machine/Index.lean ====
section
/-! DEFINITION. The index register and the memory instructions (spec 43_index_memory.md R190 to R196). None of them but ANNN, FX1E and FX29 writes I (R196). -/

namespace Sys2Proof.Machine

/-- `ANNN` LD I, addr (R190). -/
def execLdI (nnn : Addr) (s : State) : Host.Outcome State Fault Refusal := .next (s.setI (zextAddr nnn))

/-- `FX1E` ADD I, Vx (R191): modulo 2^16, no flag. -/
def execAddIVx (x : Reg) (s : State) : Host.Outcome State Fault Refusal := .next (s.setI (s.i + zextByte (s.reg x)))

/-- `FX29` LD F, Vx (R192): 5 · VX, VX not masked. -/
def execLdFVx (x : Reg) (s : State) : Host.Outcome State Fault Refusal := .next (s.setI (5 * zextByte (s.reg x)))

/-- `FX33` LD B, Vx (R193). -/
def execLdBVx (x : Reg) (s : State) : Host.Outcome State Fault Refusal :=
  match s.writeAtI (decimalDigits (s.reg x)) with
  | .error e => raise e
  | .ok t => .next t

/-- `FX55` LD [I], Vx (R194). -/
def execLdMemVx (x : Reg) (s : State) : Host.Outcome State Fault Refusal :=
  match s.writeAtI (takeBlock s.v x) with
  | .error e => raise e
  | .ok t => .next t

/-- `FX65` LD Vx, [I] (R195). -/
def execLdVxMem (x : Reg) (s : State) : Host.Outcome State Fault Refusal :=
  match s.readAtI (x.val + 1) with
  | .error e => raise e
  | .ok bs => .next { s with v := setBlock s.v 0 bs }

end Sys2Proof.Machine
end

