-- ==== Sys2Proof/Machine/KeypadTimers.lean ====
section
/-! DEFINITION. The keypad and timer instructions (spec 45_keypad_timers.md R230 to R236). -/

namespace Sys2Proof.Machine

/-- `EX9E` SKP Vx (R230). -/
def execSkp (x : Reg) (s : State) : Host.Outcome State Fault Refusal :=
  match keyIndex (s.reg x) with
  | .error e => raise e
  | .ok k => .next (s.skipIf s.key[k])

/-- `EXA1` SKNP Vx (R231). -/
def execSknp (x : Reg) (s : State) : Host.Outcome State Fault Refusal :=
  match keyIndex (s.reg x) with
  | .error e => raise e
  | .ok k => .next (s.skipIf (!s.key[k]))

/-- `FX0A` LD Vx, K (R232): the lowest pressed key, or PC back to this FX0A. -/
def execLdVxK (x : Reg) (s : State) : Host.Outcome State Fault Refusal :=
  match lowestKey s.key with
  | none => .next (s.setPc (s.pc - 2))
  | some k => .next (s.setV x (BitVec.ofNat 8 k.val))

/-- `FX07` LD Vx, DT (R233). -/
def execLdVxDt (x : Reg) (s : State) : Host.Outcome State Fault Refusal := .next (s.setV x s.dt)

/-- `FX15` LD DT, Vx (R234). -/
def execLdDtVx (x : Reg) (s : State) : Host.Outcome State Fault Refusal := .next { s with dt := s.reg x }

/-- `FX18` LD ST, Vx (R235). -/
def execLdStVx (x : Reg) (s : State) : Host.Outcome State Fault Refusal := .next { s with st := s.reg x }

end Sys2Proof.Machine
end

