-- ==== Sys2Proof/Machine/Tick.lean ====
section
/-! DEFINITION. The tick: fetch, decode, execute (spec 40_tick_cycle.md R120 to R124). -/

namespace Sys2Proof.Machine

/-- `tick()` (R120, R124): the first error of fetch, decode and execute, in this order (R278), ends the tick with the
state as it was; else every write of the tick takes effect. -/
def tick (s : State) : Host.Outcome State Fault Refusal :=
  match fetch s with
  | .error e => raise e
  | .ok op =>
    match decodeWord op with
    | .error _ => raise (.unknownOpcode op)
    | .ok i => exec i (advancePc s)

end Sys2Proof.Machine
end

