-- ==== Sys2Proof/Machine/Step.lean ====
section
/-! DEFINITION. One step is one tick (spec 40_tick_cycle.md R120). -/

namespace Sys2Proof.Machine

/-- One step of the machine: one `tick()` (R120). -/
def step (s : State) : Host.Outcome State Fault Refusal := tick s

/-- The state with the instruction w, numbered as spec/opcode_table.json numbers it, stored at the address the next
step fetches from (log entry 4). -/
def State.withFetchWord (s : State) (nbits w : Nat) : State := placeWord (fetchPoint s) (tableWord nbits w)

end Sys2Proof.Machine
end

