-- ==== Sys2Proof/Machine/HostOps.lean ====
section
/-! DEFINITION. The host's operations on the core, in any order, and the run that ends at its first failed tick (spec 46_host_interface.md R250 to R262, 60_exceptions.md R280, 70_reset_and_hazards.md R300 to R305). -/

namespace Sys2Proof.Machine

/-- `reset()` (R300): every element of the state to its reset value, from any state (R301), the font of this core loaded
again. The random source is outside the core and is not touched (R303), so the count of draws stays. -/
def resetOp (s : State) : State := { State.constructed s.font with draws := s.draws }

/-- `load(rom)` (R251, R252): the length is checked before any byte is written; PC and everything else stay. -/
def load (rom : List Byte) (s : State) : Except Fault State :=
  if rom.length > Config.maxRom then .error .romTooLarge else s.writeBytes Config.progBase rom

/-- A timer counted down by one, never below zero (R253). -/
def countDown (t : Byte) : Byte := if t.toNat > 0 then t - 1 else t

/-- `tick_timers()` (R253): both timers in one transaction; no instruction runs. -/
def tickTimers (s : State) : State := { s with dt := countDown s.dt, st := countDown s.st }

/-- `keypress(k, p)` (R254): the index is one of sixteen by its type. -/
def keypress (k : Reg) (p : Bool) (s : State) : State := { s with key := s.key.set k p }

/-- `display()` (R255): the 2048 cells, cell (x, y) at index x + 64·y, as they are at the call. -/
def display (s : State) : Vector Bool 2048 := Vector.ofFn (fun k => s.fb.index k.val)

/-- `sound()` (R256): the value of ST. -/
def sound (s : State) : Byte := s.st

/-- The operations of R250. -/
inductive HostOp where
  | reset
  | load (rom : List Byte)
  | tick
  | tickTimers
  | keypress (k : Reg) (p : Bool)
  | display
  | sound
  deriving DecidableEq, Repr

/-- What an operation returns (R250). -/
inductive HostResult where
  /-- no result: `reset`, `tick_timers`, `keypress` -/
  | none
  /-- `Ok(())` -/
  | ok
  /-- `Err(e)` -/
  | err (e : Fault)
  /-- the view `display` returns -/
  | cells (view : Vector Bool 2048)
  /-- the value `sound` returns -/
  | byte (b : Byte)
  deriving DecidableEq, Repr

/-- One operation as an atomic transaction (R5, R250, R257): the state after it and its result. An error leaves the
state as it was (R11). The core refuses no instruction, so the refusal a tick could answer returns no result and changes nothing. -/
def applyOp (op : HostOp) (s : State) : State × HostResult :=
  match op with
  | .reset => (resetOp s, .none)
  | .load rom =>
    match load rom s with
    | .ok t => (t, .ok)
    | .error e => (s, .err e)
  | .tick =>
    match step s with
    | .next t => (t, .ok)
    | .fault e => (s, .err e)
    | .refused _ => (s, .none)
  | .tickTimers => (tickTimers s, .none)
  | .keypress k p => (keypress k p s, .none)
  | .display => (s, .cells (display s))
  | .sound => (s, .byte (sound s))

/-- A core with the model-level fault record of R280, which is no part of the core's state (R20). -/
structure Session where
  machine : State
  /-- the error of the run's first failed tick, if one has failed -/
  record : Option Fault
  deriving DecidableEq, Repr

/-- A newly constructed core for a font, with no error recorded (R302). The font is the model's argument, with the
spec's default (R6, R62). -/
def Session.new (font : Config.Font := defaultFont) : Session := ⟨State.constructed font, none⟩

/-- The record after an operation (R280, log entry 3): a failed tick is recorded; a reset begins a new run; nothing else changes it. -/
def nextRecord (op : HostOp) (r : HostResult) (record : Option Fault) : Option Fault :=
  match op, r with
  | .reset, _ => none
  | .tick, .err e => some e
  | _, _ => record

/-- One operation of a session (R258, R280): no further tick is admitted once a tick of the run has failed; every other
operation is admitted at any time. `none`: not admitted. -/
def Session.apply (op : HostOp) (c : Session) : Option (Session × HostResult) :=
  if op = .tick ∧ c.record.isSome then none
  else
    match applyOp op c.machine with
    | (t, r) => some (⟨t, nextRecord op r c.record⟩, r)

/-- A sequence of operations, in the order the host calls them (R258): `none` where one of them is not admitted. -/
def Session.run : List HostOp → Session → Option Session
  | [], c => some c
  | op :: ops, c =>
    match Session.apply op c with
    | none => none
    | some (c', _) => Session.run ops c'

end Sys2Proof.Machine
end

