-- ==== Sys2Proof/Safety.lean ====
section
/-! DEFINITION. The terms that claims use: the invariant of the reachable states, a fetchable word, the awaiting-key condition, the illegal spaces, and which instruction writes what. -/

namespace Sys2Proof.Machine

/-- The bound no PC of a reachable state passes: BNNN gives at most 0x0FFF + 0xFF (spec 10_state.md R30). -/
def maxPc : Nat := 0x10FE

/-- The bound no return address passes: a CALL at 0x0FFE pushes 0x1000 (spec 41_control_flow.md R140, R142). -/
def maxReturn : Nat := 0x1000

/-- The invariant of the reachable states: memory is in its canonical form, every stack entry is an address a CALL can
have pushed, and PC is an address some redirection or advance can have given (R30, R140). -/
structure State.Inv (s : State) : Prop where
  mem_wf : s.MemWf
  stack_le : ∀ k : Fin 16, s.stack[k].toNat ≤ maxReturn
  pc_le : s.pc.toNat ≤ maxPc

/-- Both bytes of a fetch at PC are in range and the opcode there is op (R65, R121). -/
def State.FetchesWord (s : State) (op : Word) : Prop :=
  s.pc.toNat + 1 < Config.memSize ∧
    op = wordOfBytes (Memory.get s.font s.mem s.pc.toNat) (Memory.get s.font s.mem (s.pc.toNat + 1))

/-- The bytes at PC are the instruction i (R121, R122). -/
def State.Fetches (s : State) (i : Instr) : Prop := ∃ op, s.FetchesWord op ∧ decodeWord op = .ok i

/-- PC is at an FX0A and no key is pressed: the condition in which its tick retries (spec 45_keypad_timers.md R232, R236). -/
def State.Awaiting (s : State) : Prop := (∃ x, s.Fetches (.ldVxK x)) ∧ ∀ k : Fin 16, s.key[k] = false

/-- The pixel at row r and column offset c of the sprite at I is set: bit 7 − c of the byte at I + r (spec 44_display.md R212). -/
def State.SpriteBit (s : State) (r c : Nat) : Prop := (Memory.get s.font s.mem (s.indexed r)).getLsbD (7 - c) = true

/-- The illegal spaces of spec 30_encoding.md R96. -/
def illegalSpaces : List (Word → Bool) :=
  [fun op => fieldD1 op == 0x0 && op != 0x00E0 && op != 0x00EE,
   fun op => fieldD1 op == 0x5 && fieldD4 op != 0x0,
   fun op => fieldD1 op == 0x8 && [0x8, 0x9, 0xA, 0xB, 0xC, 0xD, 0xF].contains (fieldD4 op),
   fun op => fieldD1 op == 0x9 && fieldD4 op != 0x0,
   fun op => fieldD1 op == 0xE && !([0x9E, 0xA1].contains (fieldNN op)),
   fun op => fieldD1 op == 0xF && !([0x07, 0x0A, 0x15, 0x18, 0x1E, 0x29, 0x33, 0x55, 0x65].contains (fieldNN op))]

/-- The registers an instruction may write, as a result or as the flag VF (spec 10_state.md R23). -/
def WritesV (i : Instr) (r : Reg) : Prop :=
  match i with
  | .ldImm x _ | .addImm x _ | .ldReg x _ | .orReg x _ | .andReg x _ | .xorReg x _ | .rnd x _ | .ldVxDt x | .ldVxK x => r = x
  | .addReg x _ | .sub x _ | .shr x _ | .subn x _ | .shl x _ => r = x ∨ r = 15
  | .drw _ _ _ => r = 15
  | .ldVxMem x => r ≤ x
  | .cls | .ret | .jp _ | .call _ | .seImm _ _ | .sneImm _ _ | .seReg _ _ | .sneReg _ _ | .ldI _ | .jpV0 _ | .skp _ | .sknp _
  | .ldDtVx _ | .ldStVx _ | .addIVx _ | .ldFVx _ | .ldBVx _ | .ldMemVx _ => False

/-- The instructions whose rule writes PC (spec 40_tick_cycle.md R126). -/
def Redirects (i : Instr) : Prop :=
  match i with
  | .ret | .jp _ | .call _ | .jpV0 _ | .seImm _ _ | .sneImm _ _ | .seReg _ _ | .sneReg _ _ | .skp _ | .sknp _ | .ldVxK _ => True
  | .cls | .ldImm _ _ | .addImm _ _ | .ldReg _ _ | .orReg _ _ | .andReg _ _ | .xorReg _ _ | .addReg _ _ | .sub _ _ | .shr _ _
  | .subn _ _ | .shl _ _ | .ldI _ | .rnd _ _ | .drw _ _ _ | .ldVxDt _ | .ldDtVx _ | .ldStVx _ | .addIVx _ | .ldFVx _ | .ldBVx _
  | .ldMemVx _ | .ldVxMem _ => False

end Sys2Proof.Machine
end

