-- ==== Sys2Proof/Certificates/Slice0/Obligations.lean ====
section
/-! DEFINITION. The statements for the provers. Each formalises rules of spec/ over every state and every operand; where a
state no run reaches could falsify one, its premise is the canonical form of memory, which `StepKeepsTheInvariant` and
`HostOperationsKeepTheInvariant` show every reachable state to have. -/

open Sys2Proof Sys2Proof.Machine

/-! ## Encoding (30_encoding.md) -/

/-- For every instruction, with every operand at every value its field admits, decoding its encoding gives it back, and
leaves exactly the bytes after it (R90, R93, R98). -/
def Obligations.DecodeOfEncodeIsTheInstruction : Prop :=
  ∀ (i : Instr) (rest : List Byte),
    decodeWord (encode i) = .ok i ∧ decodeBytes (encodeBytes i ++ rest) = .ok (i, rest)

/-- A word that decodes is the encoding of what it decodes to: each legal word has one meaning and no bit of it is dropped (R90, R93). -/
def Obligations.DecodedWordIsTheEncodingOfItsInstruction : Prop :=
  ∀ (op : Word) (i : Instr), decodeWord op = .ok i → encode i = op

/-- The decoder gives an instruction exactly where `op & mask = match` for a row of the table, that row's
instruction (R93); a word that no row matches is rejected with the whole word (R95, R122; the spec's decision D7: log entry 10). -/
def Obligations.DecoderFollowsTheOpcodeTable : Prop :=
  ∀ op : Word,
    (∀ i, decodeWord op = .ok i → i.row ∈ opcodeTable ∧ op &&& i.row.mask = i.row.pattern) ∧
    (∀ row ∈ opcodeTable, op &&& row.mask = row.pattern → ∃ i, decodeWord op = .ok i ∧ i.row = row) ∧
    ((∀ row ∈ opcodeTable, op &&& row.mask ≠ row.pattern) → decodeWord op = .error (.unknownOpcode op))

/-- R94: the table has 34 rows, and no word matches two of them, so that the order of matching does not matter (the spec's
inference from R93). -/
def Obligations.OpcodePatternsAreDisjoint : Prop :=
  opcodeTable.length = 34 ∧
  ∀ op : Word, opcodeTable.Pairwise fun r r' => ¬ (op &&& r.mask = r.pattern ∧ op &&& r'.mask = r'.pattern)

/-- R96: the decoder rejects exactly the words of the six spaces of illegal encodings, each with the whole word (the spec's
decision D7: log entry 10). -/
def Obligations.IllegalWordsAreThoseOfTheSixSpaces : Prop :=
  ∀ op : Word, decodeWord op = .error (.unknownOpcode op) ↔ ∃ space ∈ illegalSpaces, space op = true

/-- Words written out from the patterns of R93, one or more of every family, decode to the instructions they stand for. -/
def Obligations.SampleWordsDecodeAsTheTableSays : Prop :=
  decodeWord 0x00E0 = .ok .cls ∧ decodeWord 0x00EE = .ok .ret ∧ decodeWord 0x1DEF = .ok (.jp 0xDEF) ∧
  decodeWord 0x2ABC = .ok (.call 0xABC) ∧ decodeWord 0x37F0 = .ok (.seImm 7 0xF0) ∧ decodeWord 0x480F = .ok (.sneImm 8 0x0F) ∧
  decodeWord 0x5670 = .ok (.seReg 6 7) ∧ decodeWord 0x6D12 = .ok (.ldImm 13 0x12) ∧ decodeWord 0x7E34 = .ok (.addImm 14 0x34) ∧
  decodeWord 0x81E4 = .ok (.addReg 1 14) ∧ decodeWord 0x82C6 = .ok (.shr 2 12) ∧ decodeWord 0x9350 = .ok (.sneReg 3 5) ∧
  decodeWord 0xA123 = .ok (.ldI 0x123) ∧ decodeWord 0xB456 = .ok (.jpV0 0x456) ∧ decodeWord 0xC45A = .ok (.rnd 4 0x5A) ∧
  decodeWord 0xD12F = .ok (.drw 1 2 15) ∧ decodeWord 0xE69E = .ok (.skp 6) ∧ decodeWord 0xFB15 = .ok (.ldDtVx 11) ∧
  decodeWord 0xF955 = .ok (.ldMemVx 9)

/-! ## The tick (40_tick_cycle.md) -/

/-- Where the bytes at PC are an instruction, the step is the execute step of that instruction from the state with PC
moved past its word (R120, R121, R122, R123, R125). -/
def Obligations.TickRunsTheDecodedInstruction : Prop :=
  ∀ (s : State) (op : Word) (i : Instr), s.FetchesWord op → decodeWord op = .ok i →
    step s = exec i { s with pc := s.pc + 2 }

/-- R121: a fetch at PC ≥ 0x0FFF raises MemoryOutOfRange, with address PC when PC ≥ 0x1000 and 0x1000 when PC = 0x0FFF;
at any other PC the fetch reads a word (the spec's decision D4: log entry 8). -/
def Obligations.FetchOutOfRangeFaults : Prop :=
  ∀ s : State,
    (0x1000 ≤ s.pc.toNat → step s = .fault (.memoryOutOfRange s.pc)) ∧
    (s.pc.toNat = 0x0FFF → step s = .fault (.memoryOutOfRange 0x1000)) ∧
    (s.pc.toNat < 0x0FFF → ∃ op, s.FetchesWord op)

/-- R272: a fetched word that matches no row of the opcode table raises UnknownOpcode with the whole word. -/
def Obligations.IllegalWordFaultsWithTheWord : Prop :=
  ∀ (s : State) (op : Word), s.FetchesWord op → (∀ row ∈ opcodeTable, op &&& row.mask ≠ row.pattern) →
    step s = .fault (.unknownOpcode op)

/-- The word that `withFetchWord` places is the instruction the next step runs, from PC past it; it is placed at PC where
a fetch at PC can succeed, else at 0x200 (the model's choice: log entry 4), and no other byte and no other element changes. -/
def Obligations.PlacedWordIsTheNextInstruction : Prop :=
  ∀ (s : State) (w : Nat) (i : Instr), s.MemWf → decodeTableWord 16 w = some i →
    let p := s.withFetchWord 16 w
    step p = exec i { p with pc := p.pc + 2 } ∧
    (s.pc.toNat < 0x0FFF → p.pc = s.pc) ∧ (0x0FFF ≤ s.pc.toNat → p.pc = 0x200) ∧
    (∀ a, a ≠ p.pc.toNat → a ≠ p.pc.toNat + 1 → p.readByte a = s.readByte a) ∧
    p = { s with mem := p.mem, pc := p.pc }

/-- R126: after a tick of an instruction whose rule does not write PC, PC is the fetch address plus 2. -/
def Obligations.PcAdvancesByTwoUnlessRedirected : Prop :=
  ∀ (s t : State) (i : Instr), s.Fetches i → ¬ Redirects i → step s = .next t → t.pc = s.pc + 2

/-- R131, R124: a failed tick leaves the state unchanged, and after a keypress or a tick_timers, as after nothing, the
next tick fails with the same error (the spec's decision D21: log entry 21). -/
def Obligations.FailedTickChangesNothingAndRepeats : Prop :=
  ∀ (s : State) (e : Fault), step s = .fault e →
    applyOp .tick s = (s, .err e) ∧ step (tickTimers s) = .fault e ∧ ∀ k p, step (keypress k p s) = .fault e

/-- R130: only CXNN depends on the random source. On states that differ in the draw count alone, every other
instruction has the same outcome, but for that count. -/
def Obligations.OnlyRndDependsOnTheRandomSource : Prop :=
  ∀ (i : Instr) (s : State) (d : Nat), (∀ x nn, i ≠ .rnd x nn) →
    exec i { s with draws := d } =
      match exec i s with
      | .next t => .next { t with draws := d }
      | .fault e => .fault e
      | .refused r => .refused r

/-! ## Reset, and the invariant (10_state.md, 70_reset_and_hazards.md) -/

/-- For every value of the parameter FONT, every element of the state after construction and after the reset operation
(R42, R300, R302, R303). `State.reset` is that state for the default of FONT (R62, log entry 1); the count of draws is the
model's own (log entry 2). -/
def Obligations.ResetLeavesTheSpecifiedState : Prop :=
  State.reset = State.constructed defaultFont ∧
  ∀ font : Config.Font,
    let s := State.constructed font
    (Session.new font).machine = s ∧ (∀ s₀ : State, s₀.font = font → resetOp s₀ = { s with draws := s₀.draws }) ∧
    (∀ a, (h : a < 0x50) → s.readByte a = .ok font[a]) ∧ (∀ a, 0x50 ≤ a → a < 0x1000 → s.readByte a = .ok 0) ∧
    (∀ r : Fin 16, s.v[r] = 0) ∧ s.i = 0 ∧ s.pc = 0x200 ∧ s.sp = 0 ∧ (∀ k : Fin 16, s.stack[k] = 0) ∧ s.dt = 0 ∧ s.st = 0 ∧
    (∀ k : Fin 16, s.key[k] = false) ∧ (∀ k, k < 2048 → s.fb.index k = false)

/-- R301, R303: from any state the reset operation gives the reset state, the random source untouched; two resets are one;
and a tick with no load since the reset raises UnknownOpcode(0x0000) (the spec's decisions D18 and D31: log entries 2
and 4). What is not the state's own stays: the font it was constructed with and the count of draws. -/
def Obligations.ResetOperationForgetsTheState : Prop :=
  ∀ s s' : State, resetOp (resetOp s) = resetOp s ∧
    (s.draws = s'.draws → s.font = s'.font → resetOp s = resetOp s') ∧ applyOp .tick (resetOp s) = (resetOp s, .err (.unknownOpcode 0x0000))

/-- The reset state satisfies the invariant, and so does a core constructed with any font. -/
def Obligations.ResetSatisfiesTheInvariant : Prop :=
  State.reset.Inv ∧ ∀ font : Config.Font, (State.constructed font).Inv

/-- From every state that satisfies the invariant (memory canonical, return addresses at most 0x1000, PC at most 0x10FE),
a step gives a state that satisfies it (R30, R140; the bounds are the spec's inferences, log entry 31). -/
def Obligations.StepKeepsTheInvariant : Prop :=
  ∀ s t : State, s.Inv → step s = .next t → t.Inv

/-- Every operation of the host keeps the invariant, whatever the order of the calls (R258; the spec's decisions D2
and D17: log entries 19 and 23): so does every sequence of admitted operations. -/
def Obligations.HostOperationsKeepTheInvariant : Prop :=
  ∀ (ops : List HostOp) (c c' : Session), c.machine.Inv → Session.run ops c = some c' → c'.machine.Inv

/-! ## Control transfer (41_control_flow.md) -/

/-- R140: RET pops the top of the stack into PC, and faults on an empty stack (SP by the spec's decision D20: log entry 20). -/
def Obligations.RetPopsTheStackIntoPc : Prop :=
  decodeWord 0x00EE = .ok .ret ∧
  ∀ s : State,
    (∀ k : Fin 16, s.sp.val = k.val + 1 → ∃ t, exec .ret s = .next t ∧
      t.pc = s.stack[k] ∧ t.sp.val = k.val ∧ t = { s with pc := t.pc, sp := t.sp }) ∧
    (s.sp = 0 → exec .ret s = .fault .stackUnderflow)

/-- R142: CALL pushes PC, which is the address after the CALL, and jumps; it faults on a full stack
(SP by the spec's decision D20: log entry 20). -/
def Obligations.CallPushesPcAndJumps : Prop :=
  ∀ nnn : Addr, decodeWord (wordNNN 0x2 nnn) = .ok (.call nnn) ∧
  ∀ s : State,
    (∀ k : Fin 16, s.sp.val = k.val → ∃ t, exec (.call nnn) s = .next t ∧
      t.stack[k] = s.pc ∧ t.sp.val = k.val + 1 ∧ t.pc.toNat = nnn.toNat ∧
      (∀ j : Fin 16, j ≠ k → t.stack[j] = s.stack[j]) ∧ t = { s with pc := t.pc, sp := t.sp, stack := t.stack }) ∧
    (s.sp.val = 16 → exec (.call nnn) s = .fault .stackOverflow)

/-- R141, R143: JP goes to NNN, and JP V0 to NNN + V0 with no wrap; nothing else changes. -/
def Obligations.JumpsSetPc : Prop :=
  ∀ (nnn : Addr) (s : State),
    decodeWord (wordNNN 0x1 nnn) = .ok (.jp nnn) ∧ decodeWord (wordNNN 0xB nnn) = .ok (.jpV0 nnn) ∧
    (∃ t, exec (.jp nnn) s = .next t ∧ t.pc.toNat = nnn.toNat ∧ t = { s with pc := t.pc }) ∧
    (∃ t, exec (.jpV0 nnn) s = .next t ∧ t.pc.toNat = nnn.toNat + s.v[0].toNat ∧ t = { s with pc := t.pc })

/-- R144, R145: SE and SNE with an immediate skip, moving PC by 2, exactly when VX is equal, or not equal, to NN. -/
def Obligations.ImmediateSkipsCompareVxWithNn : Prop :=
  ∀ (x : Reg) (nn : Byte) (s : State),
    decodeWord (wordXNN 0x3 x nn) = .ok (.seImm x nn) ∧ decodeWord (wordXNN 0x4 x nn) = .ok (.sneImm x nn) ∧
    (∃ t, exec (.seImm x nn) s = .next t ∧ (s.v[x] = nn → t.pc = s.pc + 2) ∧ (s.v[x] ≠ nn → t.pc = s.pc) ∧
      t = { s with pc := t.pc }) ∧
    (∃ t, exec (.sneImm x nn) s = .next t ∧ (s.v[x] ≠ nn → t.pc = s.pc + 2) ∧ (s.v[x] = nn → t.pc = s.pc) ∧
      t = { s with pc := t.pc })

/-- R146, R147: SE and SNE with a register skip exactly when VX is equal, or not equal, to VY. -/
def Obligations.RegisterSkipsCompareVxWithVy : Prop :=
  ∀ (x y : Reg) (s : State),
    decodeWord (wordXYN 0x5 x y 0) = .ok (.seReg x y) ∧ decodeWord (wordXYN 0x9 x y 0) = .ok (.sneReg x y) ∧
    (∃ t, exec (.seReg x y) s = .next t ∧ (s.v[x] = s.v[y] → t.pc = s.pc + 2) ∧ (s.v[x] ≠ s.v[y] → t.pc = s.pc) ∧
      t = { s with pc := t.pc }) ∧
    (∃ t, exec (.sneReg x y) s = .next t ∧ (s.v[x] ≠ s.v[y] → t.pc = s.pc + 2) ∧ (s.v[x] = s.v[y] → t.pc = s.pc) ∧
      t = { s with pc := t.pc })

/-- A CALL and the RET that matches it resume after the CALL with the stack pointer as it was, whatever the subroutine
did to everything but the stack (R125, R140, R142, R150; log entry 20). -/
def Obligations.CallThenReturnResumesAfterTheCall : Prop :=
  ∀ (nnn : Addr) (s : State), s.sp.val < 16 → ∃ t, exec (.call nnn) s = .next t ∧
    ∀ t' : State, t'.sp = t.sp → t'.stack = t.stack → ∃ u, exec .ret t' = .next u ∧ u.pc = s.pc ∧ u.sp = s.sp ∧
      u = { t' with pc := u.pc, sp := u.sp }

/-- R32 (the spec's decision D20: log entry 20): stack entries at SP and above cannot be read. From two states that differ in such entries alone, every
instruction has the same outcome, but for entries at the new SP and above. -/
def Obligations.StaleStackEntriesAreNotObservable : Prop :=
  ∀ (i : Instr) (s : State) (stack' : Vector Word 16), (∀ k : Fin 16, k.val < s.sp.val → stack'[k] = s.stack[k]) →
    match exec i s with
    | .next t => ∃ stack'', exec i { s with stack := stack' } = .next { t with stack := stack'' } ∧
        ∀ k : Fin 16, k.val < t.sp.val → stack''[k] = t.stack[k]
    | .fault e => exec i { s with stack := stack' } = .fault e
    | .refused r => exec i { s with stack := stack' } = .refused r

/-! ## Loads, logic and arithmetic (42_alu.md) -/

/-- R160, R161, R162: the loads and the add of an immediate write VX and no other register, VF included; nothing else changes. -/
def Obligations.LoadsAndImmediateAddWriteVxOnly : Prop :=
  ∀ (x y : Reg) (nn : Byte) (s : State),
    decodeWord (wordXNN 0x6 x nn) = .ok (.ldImm x nn) ∧ decodeWord (wordXNN 0x7 x nn) = .ok (.addImm x nn) ∧
    decodeWord (wordXYN 0x8 x y 0x0) = .ok (.ldReg x y) ∧
    (∃ t, exec (.ldImm x nn) s = .next t ∧ t.v[x] = nn ∧ (∀ r : Reg, r ≠ x → t.v[r] = s.v[r]) ∧ t = { s with v := t.v }) ∧
    (∃ t, exec (.addImm x nn) s = .next t ∧ t.v[x].toNat = (s.v[x].toNat + nn.toNat) % 256 ∧
      (∀ r : Reg, r ≠ x → t.v[r] = s.v[r]) ∧ t = { s with v := t.v }) ∧
    (∃ t, exec (.ldReg x y) s = .next t ∧ t.v[x] = s.v[y] ∧ (∀ r : Reg, r ≠ x → t.v[r] = s.v[r]) ∧ t = { s with v := t.v })

/-- R163, R164, R165: OR, AND and XOR act bit by bit on VX and VY and write VX and no other register,
VF included (the spec's decision D10: log entry 13). -/
def Obligations.LogicWritesVxOnly : Prop :=
  ∀ (x y : Reg) (s : State),
    decodeWord (wordXYN 0x8 x y 0x1) = .ok (.orReg x y) ∧ decodeWord (wordXYN 0x8 x y 0x2) = .ok (.andReg x y) ∧
    decodeWord (wordXYN 0x8 x y 0x3) = .ok (.xorReg x y) ∧
    (∃ t, exec (.orReg x y) s = .next t ∧ (∀ k < 8, t.v[x].getLsbD k = (s.v[x].getLsbD k || s.v[y].getLsbD k)) ∧
      (∀ r : Reg, r ≠ x → t.v[r] = s.v[r]) ∧ t = { s with v := t.v }) ∧
    (∃ t, exec (.andReg x y) s = .next t ∧ (∀ k < 8, t.v[x].getLsbD k = (s.v[x].getLsbD k && s.v[y].getLsbD k)) ∧
      (∀ r : Reg, r ≠ x → t.v[r] = s.v[r]) ∧ t = { s with v := t.v }) ∧
    (∃ t, exec (.xorReg x y) s = .next t ∧ (∀ k < 8, t.v[x].getLsbD k = (s.v[x].getLsbD k != s.v[y].getLsbD k)) ∧
      (∀ r : Reg, r ≠ x → t.v[r] = s.v[r]) ∧ t = { s with v := t.v })

/-- R166: ADD writes the sum modulo 256 to VX and then the carry to VF; with X = F the carry stays
(the spec's decision D8: log entry 11). -/
def Obligations.AddWritesSumThenCarry : Prop :=
  ∀ (x y : Reg) (s : State),
    decodeWord (wordXYN 0x8 x y 0x4) = .ok (.addReg x y) ∧
    ∃ t, exec (.addReg x y) s = .next t ∧
      t.v[15].toNat = (if s.v[x].toNat + s.v[y].toNat > 255 then 1 else 0) ∧
      (x ≠ 15 → t.v[x].toNat = (s.v[x].toNat + s.v[y].toNat) % 256) ∧
      (∀ r : Reg, r ≠ x → r ≠ 15 → t.v[r] = s.v[r]) ∧ t = { s with v := t.v }

/-- R167, R169: SUB and SUBN write the difference modulo 256 to VX and then 1 to VF when there is no borrow, else 0
(with X = F the flag stays, by the spec's decision D8: log entry 11). -/
def Obligations.SubtractsWriteDifferenceThenNoBorrow : Prop :=
  ∀ (x y : Reg) (s : State),
    decodeWord (wordXYN 0x8 x y 0x5) = .ok (.sub x y) ∧ decodeWord (wordXYN 0x8 x y 0x7) = .ok (.subn x y) ∧
    (∃ t, exec (.sub x y) s = .next t ∧ t.v[15].toNat = (if s.v[x].toNat ≥ s.v[y].toNat then 1 else 0) ∧
      (x ≠ 15 → (t.v[x].toNat + s.v[y].toNat) % 256 = s.v[x].toNat) ∧
      (∀ r : Reg, r ≠ x → r ≠ 15 → t.v[r] = s.v[r]) ∧ t = { s with v := t.v }) ∧
    (∃ t, exec (.subn x y) s = .next t ∧ t.v[15].toNat = (if s.v[y].toNat ≥ s.v[x].toNat then 1 else 0) ∧
      (x ≠ 15 → (t.v[x].toNat + s.v[x].toNat) % 256 = s.v[y].toNat) ∧
      (∀ r : Reg, r ≠ x → r ≠ 15 → t.v[r] = s.v[r]) ∧ t = { s with v := t.v })

/-- R168, R170: SHR and SHL shift VX by one, whatever VY holds, and then write the bit shifted out to VF (the
spec's decisions D9 and D8: log entries 12 and 11). -/
def Obligations.ShiftsWriteVxThenTheBitShiftedOut : Prop :=
  ∀ (x y : Reg) (s : State),
    decodeWord (wordXYN 0x8 x y 0x6) = .ok (.shr x y) ∧ decodeWord (wordXYN 0x8 x y 0xE) = .ok (.shl x y) ∧
    (∃ t, exec (.shr x y) s = .next t ∧ t.v[15].toNat = s.v[x].toNat % 2 ∧
      (x ≠ 15 → t.v[x].toNat = s.v[x].toNat / 2) ∧
      (∀ r : Reg, r ≠ x → r ≠ 15 → t.v[r] = s.v[r]) ∧ t = { s with v := t.v }) ∧
    (∃ t, exec (.shl x y) s = .next t ∧ t.v[15].toNat = s.v[x].toNat / 128 ∧
      (x ≠ 15 → t.v[x].toNat = s.v[x].toNat * 2 % 256) ∧
      (∀ r : Reg, r ≠ x → r ≠ 15 → t.v[r] = s.v[r]) ∧ t = { s with v := t.v })

/-- R171: RND draws exactly one byte from the random source, whose bytes are free, and writes it, masked with NN, to VX
(the spec's decision D18: log entry 2). -/
def Obligations.RndWritesOneMaskedDraw : Prop :=
  ∀ (x : Reg) (nn : Byte) (s : State),
    decodeWord (wordXNN 0xC x nn) = .ok (.rnd x nn) ∧
    ∃ t, exec (.rnd x nn) s = .next t ∧ t.v[x] = Config.nextByte s.draws &&& nn ∧ t.draws = s.draws + 1 ∧
      (∀ r : Reg, r ≠ x → t.v[r] = s.v[r]) ∧ t = { s with v := t.v, draws := t.draws }

/-! ## The index register and memory (43_index_memory.md) -/

/-- R190, R191, R192: the three writers of I give NNN, I + VX modulo 2^16, and 5 · VX; they change nothing else, VF
included (for FX1E the spec's decision D12: log entry 15). -/
def Obligations.IndexLoadsWriteIOnly : Prop :=
  ∀ (nnn : Addr) (x : Reg) (s : State),
    decodeWord (wordNNN 0xA nnn) = .ok (.ldI nnn) ∧ decodeWord (wordXNN 0xF x 0x1E) = .ok (.addIVx x) ∧
    decodeWord (wordXNN 0xF x 0x29) = .ok (.ldFVx x) ∧
    (∃ t, exec (.ldI nnn) s = .next t ∧ t.i.toNat = nnn.toNat ∧ t = { s with i := t.i }) ∧
    (∃ t, exec (.addIVx x) s = .next t ∧ t.i.toNat = (s.i.toNat + s.v[x].toNat) % 65536 ∧ t = { s with i := t.i }) ∧
    (∃ t, exec (.ldFVx x) s = .next t ∧ t.i.toNat = 5 * s.v[x].toNat ∧ t = { s with i := t.i })

/-- R63: for every value of the parameter FONT, in the memory of the reset state the glyph of the hex digit d is the five
bytes of the font from where FX29 points I (the spec's inference); with the default font it is the row of R62's table for d,
whose bytes are log entry 1's. -/
def Obligations.GlyphStandsWhereLdFPoints : Prop :=
  ∀ (x : Reg) (s : State) (d : Fin 16), s.mem = [] → s.v[x].toNat = d.val → ∃ t, exec (.ldFVx x) s = .next t ∧
    ∀ k : Fin 5, t.readByte (t.indexed k.val) = .ok (s.font[5 * d.val + k.val]'(by simp only [Config.fontSize]; omega)) ∧
      (s.font = defaultFont → t.readByte (t.indexed k.val) = .ok ((fontGlyphs.getD d.val []).getD k.val 0))

/-- R193: the decimal digits of VX go to I, I+1 and I+2, and no other byte and no other element changes; where the block
reaches 0x1000 nothing is written and the fault carries the lowest address of 0x1000 or more
(the spec's decisions D4, D5 and D25: log entries 8 and 27). -/
def Obligations.BcdStoresThreeDigits : Prop :=
  ∀ (x : Reg) (s : State), s.MemWf →
    decodeWord (wordXNN 0xF x 0x33) = .ok (.ldBVx x) ∧
    (s.indexed 2 < 0x1000 → ∃ t, exec (.ldBVx x) s = .next t ∧
      (∃ b, t.readByte (s.indexed 0) = .ok b ∧ b.toNat = s.v[x].toNat / 100) ∧
      (∃ b, t.readByte (s.indexed 1) = .ok b ∧ b.toNat = s.v[x].toNat / 10 % 10) ∧
      (∃ b, t.readByte (s.indexed 2) = .ok b ∧ b.toNat = s.v[x].toNat % 10) ∧
      (∀ a, a < s.indexed 0 ∨ s.indexed 2 < a → t.readByte a = s.readByte a) ∧ t = { s with mem := t.mem }) ∧
    (0x1000 ≤ s.indexed 2 → exec (.ldBVx x) s = .fault (.memoryOutOfRange (if 0x1000 ≤ s.i then s.i else 0x1000)))

/-- R194: V0 to VX, inclusive, go to I, I+1, …, and no other byte and no other element changes, I included; where the
block reaches 0x1000 nothing is written and the fault carries max(I, 0x1000) (the spec's decisions D4, D11 and D25: log
entries 8, 14 and 27). -/
def Obligations.StoreBlockStoresV0ToVx : Prop :=
  ∀ (x : Reg) (s : State), s.MemWf →
    decodeWord (wordXNN 0xF x 0x55) = .ok (.ldMemVx x) ∧
    (s.indexed x.val < 0x1000 → ∃ t, exec (.ldMemVx x) s = .next t ∧
      (∀ k : Reg, k ≤ x → t.readByte (s.indexed k.val) = .ok s.v[k]) ∧
      (∀ a, a < s.indexed 0 ∨ s.indexed x.val < a → t.readByte a = s.readByte a) ∧ t = { s with mem := t.mem }) ∧
    (0x1000 ≤ s.indexed x.val →
      exec (.ldMemVx x) s = .fault (.memoryOutOfRange (if 0x1000 ≤ s.i then s.i else 0x1000)))

/-- R195: V0 to VX, inclusive, are read from I, I+1, …, and no other register and no other element changes, I included;
where the block reaches 0x1000 no register is written and the fault carries max(I, 0x1000) (the spec's decisions D4, D11
and D25: log entries 8, 14 and 27). -/
def Obligations.LoadBlockLoadsV0ToVx : Prop :=
  ∀ (x : Reg) (s : State),
    decodeWord (wordXNN 0xF x 0x65) = .ok (.ldVxMem x) ∧
    (s.indexed x.val < 0x1000 → ∃ t, exec (.ldVxMem x) s = .next t ∧
      (∀ k : Reg, k ≤ x → s.readByte (s.indexed k.val) = .ok t.v[k]) ∧
      (∀ k : Reg, x < k → t.v[k] = s.v[k]) ∧ t = { s with v := t.v }) ∧
    (0x1000 ≤ s.indexed x.val →
      exec (.ldVxMem x) s = .fault (.memoryOutOfRange (if 0x1000 ≤ s.i then s.i else 0x1000)))

/-- The load of a block right after its store changes nothing: every byte stored is read back into its register
(R71, R194, R195; log entry 14). -/
def Obligations.LoadAfterStoreChangesNothing : Prop :=
  ∀ (x : Reg) (s : State), s.MemWf → s.indexed x.val < 0x1000 →
    ∃ t, exec (.ldMemVx x) s = .next t ∧ exec (.ldVxMem x) t = .next t

/-- R76, R308: a store over the instruction right after itself is what the next fetch reads (the spec's decision D26: log
entry 28). -/
def Obligations.StoredCodeIsFetchedNext : Prop :=
  ∀ (x k l : Reg) (s t : State), s.MemWf → s.Fetches (.ldMemVx x) → step s = .next t →
    l.val = k.val + 1 → l ≤ x → s.indexed k.val = s.pc.toNat + 2 → t.FetchesWord (wordOfBytes s.v[k] s.v[l])

/-- R73: only reset, load, FX33 and FX55 write memory. -/
def Obligations.OnlyBcdStoreLoadAndResetWriteMemory : Prop :=
  ∀ (op : HostOp) (s : State), (applyOp op s).1.mem ≠ s.mem →
    op = .reset ∨ (∃ rom, op = .load rom) ∨ (op = .tick ∧ ∃ x, s.Fetches (.ldBVx x) ∨ s.Fetches (.ldMemVx x))

/-! ## The framebuffer (44_display.md) -/

/-- R210: CLS makes every cell false and changes nothing else, VF included. -/
def Obligations.ClsClearsEveryCell : Prop :=
  decodeWord 0x00E0 = .ok .cls ∧
  ∀ s : State, ∃ t, exec .cls s = .next t ∧ (∀ k, k < 2048 → t.fb.index k = false) ∧ t = { s with fb := t.fb }

/-- R211, R212, R213: DRW inverts exactly the cells its set sprite bits land on, with wrap-around, and writes 1 to VF when a
cell went from true to false, else 0; nothing else changes. With N = 0 it cannot fault; where the rows reach 0x1000 it
changes nothing and the fault carries max(I, 0x1000). (The spec's decisions D13, D14, D15 and D4: log entries 16, 17, 8.) -/
def Obligations.DrwInvertsTheSpriteCellsAndReportsCollision : Prop :=
  ∀ (x y : Reg) (n : Fin 16) (s : State),
    decodeWord (wordXYN 0xD x y (BitVec.ofFin n)) = .ok (.drw x y n) ∧
    (n = 0 ∨ s.indexed n.val ≤ 0x1000 → ∃ t, exec (.drw x y n) s = .next t ∧
      (∀ px py, px < 64 → py < 32 → (t.fb.index (px + 64 * py) = true ↔
        ¬ (s.fb.index (px + 64 * py) = true ↔
          ∃ r < n.val, ∃ c < 8, s.SpriteBit r c ∧ (s.v[x].toNat + c) % 64 = px ∧ (s.v[y].toNat + r) % 32 = py))) ∧
      (t.v[15] = 0 ∨ t.v[15] = 1) ∧
      (t.v[15] = 1 ↔ ∃ k < 2048, s.fb.index k = true ∧ t.fb.index k = false) ∧
      (∀ r : Reg, r ≠ 15 → t.v[r] = s.v[r]) ∧ t = { s with v := t.v, fb := t.fb }) ∧
    (n ≠ 0 → 0x1000 < s.indexed n.val →
      exec (.drw x y n) s = .fault (.memoryOutOfRange (if 0x1000 ≤ s.i then s.i else 0x1000)))

/-- Drawing the same sprite twice at the same place restores the framebuffer, and the second draw sets VF = 1 exactly when
a set bit in its N rows lands on a cell that was dark before the first, which the first draw lit and the second turns off.
(R211's corner case says "exactly when the sprite has at least one set bit": R213 gives that only where such a bit lands on
a dark cell. Log entry 6. The two draws are of one core, so of one font: log entry 1.) -/
def Obligations.DrawingTwiceRestoresTheScreen : Prop :=
  ∀ (x y : Reg) (n : Fin 16) (s t : State), exec (.drw x y n) s = .next t →
    ∀ s' : State, s'.fb = t.fb → s'.font = t.font → s'.mem = t.mem → s'.i = t.i → s'.v[x] = s.v[x] → s'.v[y] = s.v[y] →
      ∃ u, exec (.drw x y n) s' = .next u ∧ u.fb = s.fb ∧ (u.v[15] = 0 ∨ u.v[15] = 1) ∧
        (u.v[15] = 1 ↔ ∃ r < n.val, ∃ c < 8, s.SpriteBit r c ∧
          s.fb.index ((s.v[x].toNat + c) % 64 + 64 * ((s.v[y].toNat + r) % 32)) = false)

/-! ## Keypad and timers (45_keypad_timers.md) -/

/-- R230, R231: SKP and SKNP skip exactly when the key VX is pressed, or not pressed, and fault when VX is 16 or more
(the spec's decision D16: log entry 18). -/
def Obligations.KeySkipsReadTheKeypad : Prop :=
  ∀ (x : Reg) (s : State),
    decodeWord (wordXNN 0xE x 0x9E) = .ok (.skp x) ∧ decodeWord (wordXNN 0xE x 0xA1) = .ok (.sknp x) ∧
    (∀ k : Reg, s.v[x].toNat = k.val →
      (∃ t, exec (.skp x) s = .next t ∧ (s.key[k] = true → t.pc = s.pc + 2) ∧ (s.key[k] = false → t.pc = s.pc) ∧
        t = { s with pc := t.pc }) ∧
      (∃ t, exec (.sknp x) s = .next t ∧ (s.key[k] = false → t.pc = s.pc + 2) ∧ (s.key[k] = true → t.pc = s.pc) ∧
        t = { s with pc := t.pc })) ∧
    (16 ≤ s.v[x].toNat → exec (.skp x) s = .fault (.keyIndexOutOfRange s.v[x]) ∧
      exec (.sknp x) s = .fault (.keyIndexOutOfRange s.v[x]))

/-- R232: with no key pressed FX0A moves PC back by 2 and changes nothing else; else it writes the lowest pressed key to VX
and changes nothing else (the spec's decision D36: log entry 22). -/
def Obligations.KeyWaitRetriesOrTakesTheLowestKey : Prop :=
  ∀ (x : Reg) (s : State),
    decodeWord (wordXNN 0xF x 0x0A) = .ok (.ldVxK x) ∧
    ((∀ k : Reg, s.key[k] = false) → ∃ t, exec (.ldVxK x) s = .next t ∧ t.pc = s.pc - 2 ∧ t = { s with pc := t.pc }) ∧
    (∀ k : Reg, s.key[k] = true → (∀ j : Reg, j < k → s.key[j] = false) →
      ∃ t, exec (.ldVxK x) s = .next t ∧ t.v[x].toNat = k.val ∧ (∀ r : Reg, r ≠ x → t.v[r] = s.v[r]) ∧ t = { s with v := t.v })

/-- R236, R288: a tick while awaiting a key changes nothing at all, and while no key is pressed neither tick_timers nor
releasing a key ends the wait; once a key is pressed the next tick leaves the wait with PC past the FX0A (the spec's
inference; log entry 22). -/
def Obligations.AwaitingKeyTickChangesNothing : Prop :=
  ∀ s : State, s.Awaiting →
    step s = .next s ∧ (tickTimers s).Awaiting ∧ (∀ k, (keypress k false s).Awaiting) ∧
    ∀ k, ∃ t, step (keypress k true s) = .next t ∧ t.pc = s.pc + 2

/-- R233, R234, R235: the timer instructions move DT to VX, VX to DT and VX to ST, and change nothing else. -/
def Obligations.TimerInstructionsMoveTheTimers : Prop :=
  ∀ (x : Reg) (s : State),
    decodeWord (wordXNN 0xF x 0x07) = .ok (.ldVxDt x) ∧ decodeWord (wordXNN 0xF x 0x15) = .ok (.ldDtVx x) ∧
    decodeWord (wordXNN 0xF x 0x18) = .ok (.ldStVx x) ∧
    (∃ t, exec (.ldVxDt x) s = .next t ∧ t.v[x] = s.dt ∧ (∀ r : Reg, r ≠ x → t.v[r] = s.v[r]) ∧ t = { s with v := t.v }) ∧
    (∃ t, exec (.ldDtVx x) s = .next t ∧ t.dt = s.v[x] ∧ t = { s with dt := t.dt }) ∧
    (∃ t, exec (.ldStVx x) s = .next t ∧ t.st = s.v[x] ∧ t = { s with st := t.st })

/-! ## Rules of the whole machine -/

/-- R23: no instruction writes a register but those of the rule's list: VX as a result, V0 to VX by FX65, VF as a flag
(the spec's inference; log entries 11 and 13). -/
def Obligations.OnlyNamedInstructionsWriteRegisters : Prop :=
  ∀ (i : Instr) (s t : State) (r : Reg), exec i s = .next t → t.v[r] ≠ s.v[r] → WritesV i r

/-- Each other element of the state is written only by the instructions its rule names: I (R26), SP and the stack (R32),
the timers (R35, R127), the framebuffer (R37); the keypad by none (R36); and one random byte is drawn by CXNN alone (R129);
and none writes the parameter FONT (R6).
(The spec's decisions D11, D18 and D20: log entries 14, 2 and 20.) -/
def Obligations.EachElementHasOnlyItsNamedWriters : Prop :=
  ∀ (i : Instr) (s t : State), exec i s = .next t →
    (t.i ≠ s.i → (∃ nnn, i = .ldI nnn) ∨ (∃ x, i = .addIVx x) ∨ ∃ x, i = .ldFVx x) ∧
    (t.sp ≠ s.sp → i = .ret ∨ ∃ nnn, i = .call nnn) ∧ (t.stack ≠ s.stack → ∃ nnn, i = .call nnn) ∧
    (t.dt ≠ s.dt → ∃ x, i = .ldDtVx x) ∧ (t.st ≠ s.st → ∃ x, i = .ldStVx x) ∧
    (t.fb ≠ s.fb → i = .cls ∨ ∃ x y n, i = .drw x y n) ∧ t.key = s.key ∧ t.font = s.font ∧
    (t.draws ≠ s.draws → t.draws = s.draws + 1 ∧ ∃ x nn, i = .rnd x nn)

/-- R278: the errors of the execute step are exactly these, each under exactly this condition, and no instruction is
refused (the spec's decisions D4, D16 and D25: log entries 8, 18 and 27). -/
def Obligations.ExecuteErrorsAreExactlyTheNamedOnes : Prop :=
  ∀ (i : Instr) (s : State),
    (∀ e, exec i s = .fault e ↔
      (i = .ret ∧ s.sp = 0 ∧ e = .stackUnderflow) ∨ (∃ nnn, i = .call nnn ∧ s.sp.val = 16 ∧ e = .stackOverflow) ∨
      (∃ x, (i = .skp x ∨ i = .sknp x) ∧ 16 ≤ s.v[x].toNat ∧ e = .keyIndexOutOfRange s.v[x]) ∨
      (∃ n, ((∃ x y, i = .drw x y n) ∧ n ≠ 0 ∧ 0x1000 < s.indexed n.val ∨ (∃ x, i = .ldBVx x) ∧ n = 2 ∧ 0x1000 ≤ s.indexed n.val ∨
        (i = .ldMemVx n ∨ i = .ldVxMem n) ∧ 0x1000 ≤ s.indexed n.val) ∧
        e = .memoryOutOfRange (if 0x1000 ≤ s.i then s.i else 0x1000))) ∧
    (∀ r, exec i s ≠ .refused r)

/-! ## The host's operations (46_host_interface.md, 60_exceptions.md) -/

/-- R251: a ROM of at most 3584 bytes is copied to memory from 0x200; no other byte and nothing else changes, PC included
(the spec's decision D17: log entry 19). -/
def Obligations.LoadCopiesTheRom : Prop :=
  ∀ (rom : List Byte) (s : State), s.MemWf → rom.length ≤ 3584 → ∃ t, load rom s = .ok t ∧
    applyOp (.load rom) s = (t, .ok) ∧
    (∀ j, (h : j < rom.length) → t.readByte (0x200 + j) = .ok rom[j]) ∧
    (∀ a, a < 0x200 ∨ 0x200 + rom.length ≤ a → t.readByte a = s.readByte a) ∧ t = { s with mem := t.mem }

/-- R252: a longer ROM is rejected and nothing changes. -/
def Obligations.LongRomIsRejected : Prop :=
  ∀ (rom : List Byte) (s : State), 3584 < rom.length → applyOp (.load rom) s = (s, .err .romTooLarge)

/-- From every state, a load that succeeds, a reset and the same load again succeed and leave what a single load on a newly
constructed core of the same font leaves, as many draws in, with the ROM's bytes from 0x200 on: whatever the state before
the first load, nothing of it or of that load stays (R302, R305, the spec's inference; log entries 1, 2 and 19). -/
def Obligations.ReloadAfterResetIsASingleLoad : Prop :=
  ∀ (rom : List Byte) (s t : State), load rom s = .ok t →
    ∃ u, load rom (resetOp t) = .ok u ∧ load rom { State.constructed s.font with draws := s.draws } = .ok u ∧
      (∀ j, (h : j < rom.length) → u.readByte (0x200 + j) = .ok rom[j]) ∧
      (∀ a, 0x200 + rom.length ≤ a → a < 0x1000 → u.readByte a = .ok 0)

/-- R253: tick_timers takes each timer down by one, never below zero, and changes nothing else, both in one operation (the
spec's decision D22). -/
def Obligations.TickTimersCountsBothDown : Prop :=
  ∀ s : State, ∃ t, applyOp .tickTimers s = (t, .none) ∧
    (0 < s.dt.toNat → t.dt.toNat + 1 = s.dt.toNat) ∧ (s.dt.toNat = 0 → t.dt.toNat = 0) ∧
    (0 < s.st.toNat → t.st.toNat + 1 = s.st.toNat) ∧ (s.st.toNat = 0 → t.st.toNat = 0) ∧
    t = { s with dt := t.dt, st := t.st }

/-- R254: keypress sets its key and changes nothing else (the index by its type: the spec's decision D35, log entry 29). -/
def Obligations.KeypressSetsItsKeyOnly : Prop :=
  ∀ (k : Reg) (p : Bool) (s : State), ∃ t, applyOp (.keypress k p) s = (t, .none) ∧
    t.key[k] = p ∧ (∀ j : Reg, j ≠ k → t.key[j] = s.key[j]) ∧ t = { s with key := t.key }

/-- R255, R256: display gives the cells row by row, cell (x, y) at index x + 64·y, and sound gives ST; neither changes the state
(the spec's decisions D23 and D32: log entry 29). -/
def Obligations.ViewsReadAndChangeNothing : Prop :=
  ∀ s : State, (∃ view, applyOp .display s = (s, .cells view) ∧
      ∀ x y, x < 64 → y < 32 → ∀ k : Fin 2048, k.val = x + 64 * y → view[k] = s.fb.cell x y) ∧
    applyOp .sound s = (s, .byte s.st)

/-- R280: a failed tick is recorded; no later tick of the run is admitted, and no operation but a reset, which begins a new
run, clears the record (the spec's decision D21; what sets and clears the record is log entry 3's). -/
def Obligations.RunEndsAtItsFirstFailedTick : Prop :=
  ∀ c : Session,
    (∀ e, c.record = none → step c.machine = .fault e → Session.apply .tick c = some (⟨c.machine, some e⟩, .err e)) ∧
    (∀ e, c.record = some e → Session.apply .tick c = none ∧
      ∀ op c' r, op ≠ .reset → Session.apply op c = some (c', r) → c'.record = some e) ∧
    (∃ r, Session.apply .reset c = some (⟨resetOp c.machine, none⟩, r))
end

