-- ==== Sys2Proof/Laws/Decode.lean ====
section
/-! SUPPORT. The fields of a word that is put together from its nibbles (spec 30_encoding.md R90), and bytes as memory lays a word out (20_memory.md R65). -/

namespace Sys2Proof

theorem ofFin_toFin_nibble (b : BitVec 4) : BitVec.ofFin (w := 4) b.toFin = b := rfl

@[simp] theorem fieldD1_wordNNN (d : BitVec 4) (nnn : Addr) : fieldD1 (wordNNN d nnn) = d := by
  ext k hk
  simp only [fieldD1, wordNNN, BitVec.getElem_extractLsb', BitVec.getLsbD_append]
  rw [if_neg (by omega), BitVec.getLsbD_eq_getElem (by omega)]
  congr 1; omega

@[simp] theorem fieldNNN_wordNNN (d : BitVec 4) (nnn : Addr) : fieldNNN (wordNNN d nnn) = nnn := by
  ext k hk
  simp only [fieldNNN, wordNNN, BitVec.getElem_extractLsb', BitVec.getLsbD_append]
  rw [if_pos (by omega), BitVec.getLsbD_eq_getElem (by omega)]
  congr 1; omega

@[simp] theorem fieldD1_wordXNN (d : BitVec 4) (x : Reg) (nn : Byte) : fieldD1 (wordXNN d x nn) = d := by
  ext k hk
  simp only [fieldD1, wordXNN, BitVec.getElem_extractLsb', BitVec.getLsbD_append]
  rw [if_neg (by omega), if_neg (by omega), BitVec.getLsbD_eq_getElem (by omega)]
  congr 1; omega

@[simp] theorem fieldX_wordXNN (d : BitVec 4) (x : Reg) (nn : Byte) : fieldX (wordXNN d x nn) = x := by
  have h : (wordXNN d x nn).extractLsb' 8 4 = BitVec.ofFin (w := 4) x := by
    ext k hk
    simp only [wordXNN, BitVec.getElem_extractLsb', BitVec.getLsbD_append]
    rw [if_neg (by omega), if_pos (by omega), BitVec.getLsbD_eq_getElem (by omega)]
    congr 1; omega
  rw [fieldX, h]

@[simp] theorem fieldNN_wordXNN (d : BitVec 4) (x : Reg) (nn : Byte) : fieldNN (wordXNN d x nn) = nn := by
  ext k hk
  simp only [fieldNN, wordXNN, BitVec.getElem_extractLsb', BitVec.getLsbD_append]
  rw [if_pos (by omega), BitVec.getLsbD_eq_getElem (by omega)]
  congr 1; omega

@[simp] theorem fieldD1_wordXYN (d : BitVec 4) (x y : Reg) (n : BitVec 4) : fieldD1 (wordXYN d x y n) = d := by
  ext k hk
  simp only [fieldD1, wordXYN, BitVec.getElem_extractLsb', BitVec.getLsbD_append]
  rw [if_neg (by omega), if_neg (by omega), if_neg (by omega), BitVec.getLsbD_eq_getElem (by omega)]
  congr 1; omega

@[simp] theorem fieldX_wordXYN (d : BitVec 4) (x y : Reg) (n : BitVec 4) : fieldX (wordXYN d x y n) = x := by
  have h : (wordXYN d x y n).extractLsb' 8 4 = BitVec.ofFin (w := 4) x := by
    ext k hk
    simp only [wordXYN, BitVec.getElem_extractLsb', BitVec.getLsbD_append]
    rw [if_neg (by omega), if_neg (by omega), if_pos (by omega), BitVec.getLsbD_eq_getElem (by omega)]
    congr 1; omega
  rw [fieldX, h]

@[simp] theorem fieldY_wordXYN (d : BitVec 4) (x y : Reg) (n : BitVec 4) : fieldY (wordXYN d x y n) = y := by
  have h : (wordXYN d x y n).extractLsb' 4 4 = BitVec.ofFin (w := 4) y := by
    ext k hk
    simp only [wordXYN, BitVec.getElem_extractLsb', BitVec.getLsbD_append]
    rw [if_neg (by omega), if_pos (by omega), BitVec.getLsbD_eq_getElem (by omega)]
    congr 1; omega
  rw [fieldY, h]

@[simp] theorem fieldD4_wordXYN (d : BitVec 4) (x y : Reg) (n : BitVec 4) : fieldD4 (wordXYN d x y n) = n := by
  ext k hk
  simp only [fieldD4, wordXYN, BitVec.getElem_extractLsb', BitVec.getLsbD_append]
  rw [if_pos (by omega), BitVec.getLsbD_eq_getElem (by omega)]
  congr 1; omega

@[simp] theorem fieldN_wordXYN (d : BitVec 4) (x y : Reg) (n : BitVec 4) : fieldN (wordXYN d x y n) = n.toFin := by
  have h := fieldD4_wordXYN d x y n
  rw [fieldD4] at h
  rw [fieldN, h]

/-- Every word is the word of its fields d1 and NNN. -/
theorem wordNNN_fields (op : Word) : wordNNN (fieldD1 op) (fieldNNN op) = op := by
  ext k hk
  simp only [wordNNN, fieldD1, fieldNNN]
  rw [BitVec.getElem_append]
  split <;> rw [BitVec.getElem_extractLsb', BitVec.getLsbD_eq_getElem (by omega)] <;> congr 1 <;> omega

/-- Every word is the word of its fields d1, X and NN. -/
theorem wordXNN_fields (op : Word) : wordXNN (fieldD1 op) (fieldX op) (fieldNN op) = op := by
  ext k hk
  simp only [wordXNN, fieldD1, fieldX, fieldNN, ofFin_toFin_nibble]
  rw [BitVec.getElem_append]
  split
  · rw [BitVec.getElem_extractLsb', BitVec.getLsbD_eq_getElem (by omega)]; congr 1; omega
  · rw [BitVec.getElem_append]
    split <;> rw [BitVec.getElem_extractLsb', BitVec.getLsbD_eq_getElem (by omega)] <;> congr 1 <;> omega

/-- Every word is the word of its fields d1, X, Y and d4. -/
theorem wordXYN_fields (op : Word) : wordXYN (fieldD1 op) (fieldX op) (fieldY op) (fieldD4 op) = op := by
  ext k hk
  simp only [wordXYN, fieldD1, fieldX, fieldY, fieldD4, ofFin_toFin_nibble]
  rw [BitVec.getElem_append]
  split
  · rw [BitVec.getElem_extractLsb', BitVec.getLsbD_eq_getElem (by omega)]; congr 1; omega
  · rw [BitVec.getElem_append]
    split
    · rw [BitVec.getElem_extractLsb', BitVec.getLsbD_eq_getElem (by omega)]; congr 1; omega
    · rw [BitVec.getElem_append]
      split <;> rw [BitVec.getElem_extractLsb', BitVec.getLsbD_eq_getElem (by omega)] <;> congr 1 <;> omega

/-- A word read from the two bytes it was laid out as is that word (R65). -/
@[simp] theorem wordOfBytes_bytes (w : Word) : wordOfBytes (highByte w) (lowByte w) = w := by
  ext k hk
  rw [wordOfBytes, BitVec.getElem_append]
  split <;> simp only [highByte, lowByte, BitVec.getElem_extractLsb'] <;>
    rw [BitVec.getLsbD_eq_getElem (by omega)] <;> congr 1 <;> omega

@[simp] theorem highByte_wordOfBytes (hi lo : Byte) : highByte (wordOfBytes hi lo) = hi := by
  ext k hk
  simp only [highByte, wordOfBytes, BitVec.getElem_extractLsb', BitVec.getLsbD_append]
  rw [if_neg (by omega), BitVec.getLsbD_eq_getElem (by omega)]
  congr 1; omega

@[simp] theorem lowByte_wordOfBytes (hi lo : Byte) : lowByte (wordOfBytes hi lo) = lo := by
  ext k hk
  simp only [lowByte, wordOfBytes, BitVec.getElem_extractLsb', BitVec.getLsbD_append]
  rw [if_pos (by omega), BitVec.getLsbD_eq_getElem (by omega)]
  congr 1; omega

/-- What the table's numbering gives is what the decoder reads from the word itself. -/
theorem decodeTableWord_eq (nbits w : Nat) :
    decodeTableWord nbits w = (match decodeWord (tableWord nbits w) with | .ok i => some i | .error _ => none) := by
  simp only [decodeTableWord, bytesOfWord, decodeBytes, wordOfBytes_bytes]
  cases decodeWord (tableWord nbits w) <;> rfl

end Sys2Proof
end

