-- ==== Sys2Proof/Laws/State.lean ====
section
/-! SUPPORT. The small lemmas of State: one per field per update, so that no later proof unfolds a record update. -/

namespace Sys2Proof.Machine

@[simp] theorem State.setV_mem (s : State) (x : Reg) (b : Byte) : (s.setV x b).mem = s.mem := rfl
@[simp] theorem State.setV_v (s : State) (x : Reg) (b : Byte) : (s.setV x b).v = s.v.set x b := rfl
@[simp] theorem State.setV_i (s : State) (x : Reg) (b : Byte) : (s.setV x b).i = s.i := rfl
@[simp] theorem State.setV_pc (s : State) (x : Reg) (b : Byte) : (s.setV x b).pc = s.pc := rfl
@[simp] theorem State.setV_sp (s : State) (x : Reg) (b : Byte) : (s.setV x b).sp = s.sp := rfl
@[simp] theorem State.setV_stack (s : State) (x : Reg) (b : Byte) : (s.setV x b).stack = s.stack := rfl
@[simp] theorem State.setV_dt (s : State) (x : Reg) (b : Byte) : (s.setV x b).dt = s.dt := rfl
@[simp] theorem State.setV_st (s : State) (x : Reg) (b : Byte) : (s.setV x b).st = s.st := rfl
@[simp] theorem State.setV_key (s : State) (x : Reg) (b : Byte) : (s.setV x b).key = s.key := rfl
@[simp] theorem State.setV_fb (s : State) (x : Reg) (b : Byte) : (s.setV x b).fb = s.fb := rfl
@[simp] theorem State.setV_draws (s : State) (x : Reg) (b : Byte) : (s.setV x b).draws = s.draws := rfl
@[simp] theorem State.setV_font (s : State) (x : Reg) (b : Byte) : (s.setV x b).font = s.font := rfl

@[simp] theorem State.setVThenFlag_mem (s : State) (x : Reg) (b f : Byte) : (s.setVThenFlag x b f).mem = s.mem := rfl
@[simp] theorem State.setVThenFlag_v (s : State) (x : Reg) (b f : Byte) : (s.setVThenFlag x b f).v = (s.v.set x b).set 15 f := rfl
@[simp] theorem State.setVThenFlag_i (s : State) (x : Reg) (b f : Byte) : (s.setVThenFlag x b f).i = s.i := rfl
@[simp] theorem State.setVThenFlag_pc (s : State) (x : Reg) (b f : Byte) : (s.setVThenFlag x b f).pc = s.pc := rfl
@[simp] theorem State.setVThenFlag_sp (s : State) (x : Reg) (b f : Byte) : (s.setVThenFlag x b f).sp = s.sp := rfl
@[simp] theorem State.setVThenFlag_stack (s : State) (x : Reg) (b f : Byte) : (s.setVThenFlag x b f).stack = s.stack := rfl
@[simp] theorem State.setVThenFlag_dt (s : State) (x : Reg) (b f : Byte) : (s.setVThenFlag x b f).dt = s.dt := rfl
@[simp] theorem State.setVThenFlag_st (s : State) (x : Reg) (b f : Byte) : (s.setVThenFlag x b f).st = s.st := rfl
@[simp] theorem State.setVThenFlag_key (s : State) (x : Reg) (b f : Byte) : (s.setVThenFlag x b f).key = s.key := rfl
@[simp] theorem State.setVThenFlag_fb (s : State) (x : Reg) (b f : Byte) : (s.setVThenFlag x b f).fb = s.fb := rfl
@[simp] theorem State.setVThenFlag_draws (s : State) (x : Reg) (b f : Byte) : (s.setVThenFlag x b f).draws = s.draws := rfl
@[simp] theorem State.setVThenFlag_font (s : State) (x : Reg) (b f : Byte) : (s.setVThenFlag x b f).font = s.font := rfl

@[simp] theorem State.setI_mem (s : State) (w : Word) : (s.setI w).mem = s.mem := rfl
@[simp] theorem State.setI_v (s : State) (w : Word) : (s.setI w).v = s.v := rfl
@[simp] theorem State.setI_i (s : State) (w : Word) : (s.setI w).i = w := rfl
@[simp] theorem State.setI_pc (s : State) (w : Word) : (s.setI w).pc = s.pc := rfl
@[simp] theorem State.setI_sp (s : State) (w : Word) : (s.setI w).sp = s.sp := rfl
@[simp] theorem State.setI_stack (s : State) (w : Word) : (s.setI w).stack = s.stack := rfl
@[simp] theorem State.setI_dt (s : State) (w : Word) : (s.setI w).dt = s.dt := rfl
@[simp] theorem State.setI_st (s : State) (w : Word) : (s.setI w).st = s.st := rfl
@[simp] theorem State.setI_key (s : State) (w : Word) : (s.setI w).key = s.key := rfl
@[simp] theorem State.setI_fb (s : State) (w : Word) : (s.setI w).fb = s.fb := rfl
@[simp] theorem State.setI_draws (s : State) (w : Word) : (s.setI w).draws = s.draws := rfl
@[simp] theorem State.setI_font (s : State) (w : Word) : (s.setI w).font = s.font := rfl

@[simp] theorem State.setPc_mem (s : State) (w : Word) : (s.setPc w).mem = s.mem := rfl
@[simp] theorem State.setPc_v (s : State) (w : Word) : (s.setPc w).v = s.v := rfl
@[simp] theorem State.setPc_i (s : State) (w : Word) : (s.setPc w).i = s.i := rfl
@[simp] theorem State.setPc_pc (s : State) (w : Word) : (s.setPc w).pc = w := rfl
@[simp] theorem State.setPc_sp (s : State) (w : Word) : (s.setPc w).sp = s.sp := rfl
@[simp] theorem State.setPc_stack (s : State) (w : Word) : (s.setPc w).stack = s.stack := rfl
@[simp] theorem State.setPc_dt (s : State) (w : Word) : (s.setPc w).dt = s.dt := rfl
@[simp] theorem State.setPc_st (s : State) (w : Word) : (s.setPc w).st = s.st := rfl
@[simp] theorem State.setPc_key (s : State) (w : Word) : (s.setPc w).key = s.key := rfl
@[simp] theorem State.setPc_fb (s : State) (w : Word) : (s.setPc w).fb = s.fb := rfl
@[simp] theorem State.setPc_draws (s : State) (w : Word) : (s.setPc w).draws = s.draws := rfl
@[simp] theorem State.setPc_font (s : State) (w : Word) : (s.setPc w).font = s.font := rfl

@[simp] theorem advancePc_mem (s : State) : (advancePc s).mem = s.mem := rfl
@[simp] theorem advancePc_v (s : State) : (advancePc s).v = s.v := rfl
@[simp] theorem advancePc_i (s : State) : (advancePc s).i = s.i := rfl
@[simp] theorem advancePc_pc (s : State) : (advancePc s).pc = s.pc + 2 := rfl
@[simp] theorem advancePc_sp (s : State) : (advancePc s).sp = s.sp := rfl
@[simp] theorem advancePc_stack (s : State) : (advancePc s).stack = s.stack := rfl
@[simp] theorem advancePc_dt (s : State) : (advancePc s).dt = s.dt := rfl
@[simp] theorem advancePc_st (s : State) : (advancePc s).st = s.st := rfl
@[simp] theorem advancePc_key (s : State) : (advancePc s).key = s.key := rfl
@[simp] theorem advancePc_fb (s : State) : (advancePc s).fb = s.fb := rfl
@[simp] theorem advancePc_draws (s : State) : (advancePc s).draws = s.draws := rfl
@[simp] theorem advancePc_font (s : State) : (advancePc s).font = s.font := rfl

@[simp] theorem drawByte_snd_mem (s : State) : ((drawByte s).2).mem = s.mem := rfl
@[simp] theorem drawByte_snd_v (s : State) : ((drawByte s).2).v = s.v := rfl
@[simp] theorem drawByte_snd_i (s : State) : ((drawByte s).2).i = s.i := rfl
@[simp] theorem drawByte_snd_pc (s : State) : ((drawByte s).2).pc = s.pc := rfl
@[simp] theorem drawByte_snd_sp (s : State) : ((drawByte s).2).sp = s.sp := rfl
@[simp] theorem drawByte_snd_stack (s : State) : ((drawByte s).2).stack = s.stack := rfl
@[simp] theorem drawByte_snd_dt (s : State) : ((drawByte s).2).dt = s.dt := rfl
@[simp] theorem drawByte_snd_st (s : State) : ((drawByte s).2).st = s.st := rfl
@[simp] theorem drawByte_snd_key (s : State) : ((drawByte s).2).key = s.key := rfl
@[simp] theorem drawByte_snd_fb (s : State) : ((drawByte s).2).fb = s.fb := rfl
@[simp] theorem drawByte_snd_draws (s : State) : ((drawByte s).2).draws = s.draws + 1 := rfl
@[simp] theorem drawByte_snd_font (s : State) : ((drawByte s).2).font = s.font := rfl

@[simp] theorem tickTimers_mem (s : State) : (tickTimers s).mem = s.mem := rfl
@[simp] theorem tickTimers_v (s : State) : (tickTimers s).v = s.v := rfl
@[simp] theorem tickTimers_i (s : State) : (tickTimers s).i = s.i := rfl
@[simp] theorem tickTimers_pc (s : State) : (tickTimers s).pc = s.pc := rfl
@[simp] theorem tickTimers_sp (s : State) : (tickTimers s).sp = s.sp := rfl
@[simp] theorem tickTimers_stack (s : State) : (tickTimers s).stack = s.stack := rfl
@[simp] theorem tickTimers_dt (s : State) : (tickTimers s).dt = countDown s.dt := rfl
@[simp] theorem tickTimers_st (s : State) : (tickTimers s).st = countDown s.st := rfl
@[simp] theorem tickTimers_key (s : State) : (tickTimers s).key = s.key := rfl
@[simp] theorem tickTimers_fb (s : State) : (tickTimers s).fb = s.fb := rfl
@[simp] theorem tickTimers_draws (s : State) : (tickTimers s).draws = s.draws := rfl
@[simp] theorem tickTimers_font (s : State) : (tickTimers s).font = s.font := rfl

@[simp] theorem keypress_mem (s : State) (k : Reg) (p : Bool) : (keypress k p s).mem = s.mem := rfl
@[simp] theorem keypress_v (s : State) (k : Reg) (p : Bool) : (keypress k p s).v = s.v := rfl
@[simp] theorem keypress_i (s : State) (k : Reg) (p : Bool) : (keypress k p s).i = s.i := rfl
@[simp] theorem keypress_pc (s : State) (k : Reg) (p : Bool) : (keypress k p s).pc = s.pc := rfl
@[simp] theorem keypress_sp (s : State) (k : Reg) (p : Bool) : (keypress k p s).sp = s.sp := rfl
@[simp] theorem keypress_stack (s : State) (k : Reg) (p : Bool) : (keypress k p s).stack = s.stack := rfl
@[simp] theorem keypress_dt (s : State) (k : Reg) (p : Bool) : (keypress k p s).dt = s.dt := rfl
@[simp] theorem keypress_st (s : State) (k : Reg) (p : Bool) : (keypress k p s).st = s.st := rfl
@[simp] theorem keypress_key (s : State) (k : Reg) (p : Bool) : (keypress k p s).key = s.key.set k p := rfl
@[simp] theorem keypress_fb (s : State) (k : Reg) (p : Bool) : (keypress k p s).fb = s.fb := rfl
@[simp] theorem keypress_draws (s : State) (k : Reg) (p : Bool) : (keypress k p s).draws = s.draws := rfl
@[simp] theorem keypress_font (s : State) (k : Reg) (p : Bool) : (keypress k p s).font = s.font := rfl

@[simp] theorem placeWord_mem (s : State) (w : Word) : (placeWord s w).mem = Memory.put s.font (Memory.put s.font s.mem s.pc.toNat (highByte w)) (s.pc.toNat + 1) (lowByte w) := rfl
@[simp] theorem placeWord_v (s : State) (w : Word) : (placeWord s w).v = s.v := rfl
@[simp] theorem placeWord_i (s : State) (w : Word) : (placeWord s w).i = s.i := rfl
@[simp] theorem placeWord_pc (s : State) (w : Word) : (placeWord s w).pc = s.pc := rfl
@[simp] theorem placeWord_sp (s : State) (w : Word) : (placeWord s w).sp = s.sp := rfl
@[simp] theorem placeWord_stack (s : State) (w : Word) : (placeWord s w).stack = s.stack := rfl
@[simp] theorem placeWord_dt (s : State) (w : Word) : (placeWord s w).dt = s.dt := rfl
@[simp] theorem placeWord_st (s : State) (w : Word) : (placeWord s w).st = s.st := rfl
@[simp] theorem placeWord_key (s : State) (w : Word) : (placeWord s w).key = s.key := rfl
@[simp] theorem placeWord_fb (s : State) (w : Word) : (placeWord s w).fb = s.fb := rfl
@[simp] theorem placeWord_draws (s : State) (w : Word) : (placeWord s w).draws = s.draws := rfl
@[simp] theorem placeWord_font (s : State) (w : Word) : (placeWord s w).font = s.font := rfl

@[simp] theorem State.skipIf_mem (s : State) (c : Bool) : (s.skipIf c).mem = s.mem := rfl
@[simp] theorem State.skipIf_v (s : State) (c : Bool) : (s.skipIf c).v = s.v := rfl
@[simp] theorem State.skipIf_i (s : State) (c : Bool) : (s.skipIf c).i = s.i := rfl
@[simp] theorem State.skipIf_sp (s : State) (c : Bool) : (s.skipIf c).sp = s.sp := rfl
@[simp] theorem State.skipIf_stack (s : State) (c : Bool) : (s.skipIf c).stack = s.stack := rfl
@[simp] theorem State.skipIf_dt (s : State) (c : Bool) : (s.skipIf c).dt = s.dt := rfl
@[simp] theorem State.skipIf_st (s : State) (c : Bool) : (s.skipIf c).st = s.st := rfl
@[simp] theorem State.skipIf_key (s : State) (c : Bool) : (s.skipIf c).key = s.key := rfl
@[simp] theorem State.skipIf_fb (s : State) (c : Bool) : (s.skipIf c).fb = s.fb := rfl
@[simp] theorem State.skipIf_draws (s : State) (c : Bool) : (s.skipIf c).draws = s.draws := rfl
@[simp] theorem State.skipIf_font (s : State) (c : Bool) : (s.skipIf c).font = s.font := rfl

/-- A skip moves PC by 2 when it is taken and by nothing otherwise (spec 41_control_flow.md R148). -/
@[simp] theorem State.skipIf_pc (s : State) (c : Bool) : (s.skipIf c).pc = if c then s.pc + 2 else s.pc := rfl

/-- The frame of a skip: only PC can differ. -/
theorem State.skipIf_eq (s : State) (c : Bool) : s.skipIf c = { s with pc := if c then s.pc + 2 else s.pc } := rfl

@[simp] theorem drawByte_fst (s : State) : (drawByte s).1 = Config.nextByte s.draws := rfl

/-- Reading a register of an updated register file (spec 10_state.md R22). -/
theorem Regs.get_set (v : Vector Byte 16) (x r : Fin 16) (b : Byte) :
    (v.set x b)[r] = if r = x then b else v[r] := by
  simp only [Fin.getElem_fin, Vector.getElem_set, Fin.ext_iff]
  simp only [eq_comm]

/-- Reading a register after a result and then a flag are written: VF holds the flag (spec 42_alu.md R173). -/
theorem Regs.get_setVThenFlag (s : State) (x r : Fin 16) (b f : Byte) :
    (s.setVThenFlag x b f).v[r] = if r = 15 then f else if r = x then b else s.v[r] := by
  exact (Regs.get_set (s.v.set x b) 15 r f).trans (by rw [Regs.get_set])

@[simp] theorem State.reg_eq (s : State) (x : Reg) : s.reg x = s.v[x] := rfl

@[simp] theorem State.indexed_zero (s : State) : s.indexed 0 = s.i.toNat := rfl

end Sys2Proof.Machine
end

