-- ==== Sys2Proof/Laws/Memory.lean ====
section
/-! SUPPORT. Memory: a read after a write, the canonical form, and what the block accesses can do (spec 20_memory.md R68 to R71). -/

namespace Sys2Proof.Machine

variable {f : Config.Font}

theorem memSize_eq : Config.memSize = 4096 := rfl

/-- The reset contents of the font's range (R42, R61). -/
theorem resetByte_font {a : Nat} (h : a < 80) : resetByte f a = f[a] := dif_pos h

/-- The reset contents above it (R42, R61). -/
theorem resetByte_zero {a : Nat} (h : 80 ≤ a) : resetByte f a = 0 := dif_neg (Nat.not_lt.2 h)

/-- The default font's bytes, glyph by glyph (R62, R63). -/
theorem defaultFont_glyph (d : Fin 16) (k : Fin 5) :
    defaultFont[5 * d.val + k.val]'(by simp only [Config.fontSize]; omega) = (fontGlyphs.getD d.val []).getD k.val 0 := by
  have h1 : (5 * d.val + k.val) / 5 = d.val := by omega
  have h2 : (5 * d.val + k.val) % 5 = k.val := by omega
  simp only [defaultFont, Vector.getElem_ofFn, h1, h2]

/-- A read where every listed address is above a. -/
theorem Memory.get_of_above {m : Memory} {a : Nat} (h : ∀ c ∈ m, a < c.1) : Memory.get f m a = resetByte f a := by
  induction m with
  | nil => rfl
  | cons c m ih =>
    have hc := h c (by simp)
    rw [Memory.get, if_neg (by omega)]
    exact ih fun d hd => h d (by simp [hd])

/-- What a list of cells reads as when the cell of one address is put before it. -/
theorem Memory.get_cellFor_append {m : Memory} {a b' : Nat} {b : Byte} (h : ∀ c ∈ m, a < c.1) :
    Memory.get f (cellFor f a b ++ m) b' = if b' = a then b else Memory.get f m b' := by
  unfold cellFor
  split
  · next hb =>
    split
    · next e => subst e; simpa [hb] using Memory.get_of_above h
    · rfl
  · simp only [List.cons_append, List.nil_append, Memory.get, eq_comm]

/-- A read after a write: the byte written at the address written, every other byte as before (R71). -/
theorem Memory.get_put {m : Memory} (hs : m.Pairwise (fun c d => c.1 < d.1)) (a a' : Nat) (b : Byte) :
    Memory.get f (Memory.put f m a b) a' = if a' = a then b else Memory.get f m a' := by
  induction m with
  | nil => simpa [Memory.put] using Memory.get_cellFor_append (m := []) (a := a) (b := b) (b' := a') (by simp)
  | cons c m ih =>
    obtain ⟨k, d⟩ := c
    obtain ⟨hk, hm⟩ := List.pairwise_cons.1 hs
    rw [Memory.put]
    split
    · next hlt =>
      refine Memory.get_cellFor_append ?_
      intro c hc
      rcases List.mem_cons.1 hc with rfl | hc
      · exact hlt
      · exact Nat.lt_trans hlt (hk c hc)
    · split
      · next _ e =>
        subst e
        rw [Memory.get_cellFor_append hk]
        simp only [Memory.get]
        split <;> rename_i h
        · rfl
        · rw [if_neg (Ne.symm h)]
      · next hlt hne =>
        simp only [Memory.get, ih hm]
        split <;> rename_i h
        · rw [if_neg (by omega)]
        · rfl

/-- An address a put leaves listed is the one written or was listed before. -/
theorem Memory.mem_put {m : Memory} {a : Nat} {b : Byte} {c : Host.Cell} (h : c ∈ Memory.put f m a b) :
    c = (a, b) ∧ b ≠ resetByte f a ∨ c ∈ m := by
  have hcell : ∀ {m' : Memory}, c ∈ cellFor f a b ++ m' → c = (a, b) ∧ b ≠ resetByte f a ∨ c ∈ m' := by
    intro m' h
    unfold cellFor at h
    split at h
    · exact .inr (by simpa using h)
    · next hb =>
      rcases List.mem_cons.1 (by simpa using h) with h | h
      · exact .inl ⟨h, hb⟩
      · exact .inr h
  induction m with
  | nil => exact hcell (m' := []) (by simpa [Memory.put] using h)
  | cons d m ih =>
    obtain ⟨k, d⟩ := d
    rw [Memory.put] at h
    split at h
    · exact hcell h
    · split at h
      · exact (hcell h).imp_right (List.mem_cons_of_mem _)
      · rcases List.mem_cons.1 h with h | h
        · exact .inr (by simp [h])
        · exact (ih h).imp_right (List.mem_cons_of_mem _)

/-- A put keeps the canonical form. -/
theorem Memory.wf_put {m : Memory} (h : Memory.wf f m) {a : Nat} (ha : a < Config.memSize) (b : Byte) :
    Memory.wf f (Memory.put f m a b) := by
  obtain ⟨hs, hc⟩ := h
  refine ⟨?_, fun c hm => ?_⟩
  · clear hc
    have hcell : ∀ {m' : Memory}, m'.Pairwise (fun c d => c.1 < d.1) → (∀ c ∈ m', a < c.1) →
        (cellFor f a b ++ m').Pairwise (fun c d => c.1 < d.1) := by
      intro m' hm' ha'
      unfold cellFor
      split
      · simpa using hm'
      · simpa using ⟨fun k d => ha' (k, d), hm'⟩
    induction m with
    | nil => simpa [Memory.put] using hcell (m' := []) (by simp) (by simp)
    | cons c m ih =>
      obtain ⟨k, d⟩ := c
      obtain ⟨hk, hm⟩ := List.pairwise_cons.1 hs
      rw [Memory.put]
      split
      · next hlt =>
        refine hcell hs fun c hc => ?_
        rcases List.mem_cons.1 hc with rfl | hc
        · exact hlt
        · exact Nat.lt_trans hlt (hk c hc)
      · split
        · next _ e => subst e; exact hcell hm hk
        · next hlt hne =>
          refine List.pairwise_cons.2 ⟨fun c hc => ?_, ih hm⟩
          rcases Memory.mem_put hc with ⟨rfl, -⟩ | hc
          · simp only; omega
          · exact hk c hc
  · rcases Memory.mem_put hm with ⟨rfl, hb⟩ | hm
    · exact ⟨ha, hb⟩
    · exact hc c hm

/-- A core as it is constructed lists no cell, whatever its font (R42). -/
theorem State.constructed_memWf (font : Config.Font) : (State.constructed font).MemWf := ⟨.nil, nofun⟩

theorem memRead_ok {m : Memory} {a : Nat} (h : a < Config.memSize) : memRead f m a = .ok (Memory.get f m a) :=
  if_neg (by omega)

theorem memRead_error {m : Memory} {a : Nat} (h : Config.memSize ≤ a) : memRead f m a = .error (outOfRange a) :=
  if_pos h

theorem memWrite_ok {m : Memory} {a : Nat} {b : Byte} (h : a < Config.memSize) :
    memWrite f m a b = .ok (Memory.put f m a b) := if_neg (by omega)

theorem memWrite_error {m : Memory} {a : Nat} {b : Byte} (h : Config.memSize ≤ a) :
    memWrite f m a b = .error (outOfRange a) := if_pos h

/-- A block read that stays in range reads its bytes in order (R69). -/
theorem readBlock_ok {m : Memory} {a n : Nat} (h : a + n ≤ Config.memSize) :
    readBlock f m a n = .ok ((List.range n).map fun k => Memory.get f m (a + k)) := by
  induction n generalizing a with
  | zero => rfl
  | succ n ih =>
    rw [readBlock, memRead_ok (by omega), ih (by omega), List.range_succ_eq_map]
    simp [Function.comp_def, Nat.add_assoc, Nat.add_comm 1]

/-- A block read that leaves memory fails at its lowest address of 0x1000 or more (R69). -/
theorem readBlock_error {m : Memory} {a n : Nat} (hn : 0 < n) (h : Config.memSize < a + n) :
    readBlock f m a n = .error (outOfRange (max a Config.memSize)) := by
  induction n generalizing a with
  | zero => omega
  | succ n ih =>
    rw [readBlock]
    by_cases ha : a < Config.memSize
    · rw [memRead_ok ha, ih (by omega) (by omega), Nat.max_eq_right (by omega), Nat.max_eq_right (by omega)]
    · rw [memRead_error (by omega), Nat.max_eq_left (by omega)]

/-- What a block read can do: it reads all its bytes, or it fails at the lowest address out of range. -/
theorem readBlock_cases (m : Memory) (a n : Nat) :
    (n = 0 ∨ a + n ≤ Config.memSize) ∧ readBlock f m a n = .ok ((List.range n).map fun k => Memory.get f m (a + k)) ∨
    (0 < n ∧ Config.memSize < a + n) ∧ readBlock f m a n = .error (outOfRange (max a Config.memSize)) := by
  rcases Nat.eq_zero_or_pos n with rfl | hn
  · exact .inl ⟨.inl rfl, rfl⟩
  · by_cases h : a + n ≤ Config.memSize
    · exact .inl ⟨.inr h, readBlock_ok h⟩
    · exact .inr ⟨⟨hn, by omega⟩, readBlock_error hn (by omega)⟩

/-- A block write that leaves memory fails at its lowest address of 0x1000 or more, and writes nothing (R69). -/
theorem writeBlock_error {m : Memory} {a : Nat} {bs : List Byte} (hn : bs ≠ []) (h : Config.memSize < a + bs.length) :
    writeBlock f m a bs = .error (outOfRange (max a Config.memSize)) := by
  induction bs generalizing a m with
  | nil => exact absurd rfl hn
  | cons b bs ih =>
    rw [writeBlock]
    rw [List.length_cons] at h
    by_cases ha : a < Config.memSize
    · rw [memWrite_ok ha]
      have hbs : bs ≠ [] := by rintro rfl; simp at h; omega
      show writeBlock f _ (a + 1) bs = _
      rw [ih hbs (by omega), Nat.max_eq_right (by omega), Nat.max_eq_right (by omega)]
    · rw [memWrite_error (by omega), Nat.max_eq_left (by omega)]

/-- The bytes of memory after a block write: the listed ones inside the block, every other byte as before. -/
def blockAfter (f : Config.Font) (m : Memory) (a : Nat) (bs : List Byte) (a' : Nat) : Byte :=
  if h : a ≤ a' ∧ a' < a + bs.length then bs[a' - a] else Memory.get f m a'

theorem blockAfter_nil (m : Memory) (a a' : Nat) : blockAfter f m a [] a' = Memory.get f m a' := by
  rw [blockAfter, dif_neg]
  rw [List.length_nil]
  omega

/-- A block write that stays in range stores its bytes in order, changes no other byte and keeps the canonical form (R69). -/
theorem writeBlock_ok {m : Memory} {a : Nat} {bs : List Byte} (hm : Memory.wf f m) (h : a + bs.length ≤ Config.memSize) :
    ∃ m', writeBlock f m a bs = .ok m' ∧ Memory.wf f m' ∧ ∀ a', Memory.get f m' a' = blockAfter f m a bs a' := by
  induction bs generalizing a m with
  | nil => exact ⟨m, rfl, hm, fun a' => (blockAfter_nil m a a').symm⟩
  | cons b bs ih =>
    rw [List.length_cons] at h
    obtain ⟨m', he, hw, hg⟩ := ih (m := Memory.put f m a b) (a := a + 1) (Memory.wf_put hm (by omega) b) (by omega)
    refine ⟨m', by rw [writeBlock, memWrite_ok (by omega)]; exact he, hw, fun a' => ?_⟩
    rw [hg, blockAfter, blockAfter, Memory.get_put hm.1]
    by_cases h0 : a' = a
    · subst h0
      rw [dif_neg (by omega), if_pos rfl, dif_pos (by rw [List.length_cons]; omega)]
      simp
    · rw [if_neg h0]
      by_cases h1 : a + 1 ≤ a' ∧ a' < a + 1 + bs.length
      · rw [dif_pos h1, dif_pos (by rw [List.length_cons]; omega)]
        rw [List.getElem_cons, dif_neg (by omega)]
        congr 1
      · rw [dif_neg h1, dif_neg (by rw [List.length_cons]; omega)]

/-- A block write never depends on the form of the memory for whether it succeeds. -/
theorem writeBlock_inRange {m m' : Memory} {a : Nat} {bs : List Byte} (h : writeBlock f m a bs = .ok m') :
    bs = [] ∨ a + bs.length ≤ Config.memSize := by
  rcases eq_or_ne bs [] with hn | hn
  · exact .inl hn
  · refine .inr (Nat.le_of_not_lt fun hlt => ?_)
    rw [writeBlock_error hn hlt] at h
    cases h

/-- A block write that stays in range never fails, whatever the form of the memory. -/
theorem writeBlock_ne_error {m : Memory} {a : Nat} {bs : List Byte} {e : Fault} (h : a + bs.length ≤ Config.memSize) :
    writeBlock f m a bs ≠ .error e := by
  induction bs generalizing a m with
  | nil => intro he; cases he
  | cons b bs ih =>
    rw [List.length_cons] at h
    rw [writeBlock, memWrite_ok (by omega)]
    exact ih (by omega)

/-- What a block write can do: if it succeeds, the canonical form is kept and exactly the block's bytes are stored. -/
theorem writeBlock_cases {m m' : Memory} {a : Nat} {bs : List Byte} (hm : Memory.wf f m) (h : writeBlock f m a bs = .ok m') :
    Memory.wf f m' ∧ ∀ a', Memory.get f m' a' = blockAfter f m a bs a' := by
  rcases writeBlock_inRange h with rfl | hr
  · cases h
    exact ⟨hm, fun a' => (blockAfter_nil m a a').symm⟩
  · obtain ⟨m'', he, hw, hg⟩ := writeBlock_ok hm hr
    cases he.symm.trans h
    exact ⟨hw, hg⟩

/-- What writing bytes to a state's memory can do: it stores exactly the bytes, keeping the canonical form, or it fails at
the lowest address out of range and stores nothing (R11, R69). -/
theorem writeBytes_cases (s : State) (a : Nat) (bs : List Byte) :
    ((bs = [] ∨ a + bs.length ≤ Config.memSize) ∧ ∃ m, s.writeBytes a bs = .ok { s with mem := m } ∧
      (s.MemWf → Memory.wf s.font m ∧ ∀ a', Memory.get s.font m a' = blockAfter s.font s.mem a bs a')) ∨
    ((bs ≠ [] ∧ Config.memSize < a + bs.length) ∧ s.writeBytes a bs = .error (outOfRange (max a Config.memSize))) := by
  rw [State.writeBytes]
  cases h : writeBlock s.font s.mem a bs with
  | ok m => exact .inl ⟨writeBlock_inRange h, m, rfl, fun hm => writeBlock_cases hm h⟩
  | error e =>
    have hn : bs ≠ [] := by rintro rfl; cases h
    by_cases hlt : Config.memSize < a + bs.length
    · rw [writeBlock_error hn hlt] at h
      cases h
      exact .inr ⟨⟨hn, hlt⟩, rfl⟩
    · exact absurd h (writeBlock_ne_error (Nat.le_of_not_lt hlt))

/-- What load can do (R251, R252): it stores exactly the ROM from 0x200 on, keeping the canonical form, or the ROM is too
long and it fails. -/
theorem load_cases (rom : List Byte) (s : State) :
    (rom.length ≤ 3584 ∧ ∃ m, load rom s = .ok { s with mem := m } ∧
      (s.MemWf → Memory.wf s.font m ∧ ∀ a, Memory.get s.font m a = blockAfter s.font s.mem 0x200 rom a)) ∨
    (3584 < rom.length ∧ load rom s = .error .romTooLarge) := by
  have hms := memSize_eq
  have hp : Config.progBase = 0x200 := rfl
  by_cases hl : Config.maxRom < rom.length
  · exact .inr ⟨hl, if_pos hl⟩
  · have hl' : rom.length ≤ 3584 := Nat.not_lt.1 hl
    rcases writeBytes_cases s Config.progBase rom with ⟨-, m, he, hm⟩ | ⟨⟨-, hlt⟩, -⟩
    · exact .inl ⟨hl', m, (if_neg hl).trans he, hm⟩
    · omega

/-- Reading a byte of a state that is in range, and one that is not (R68). -/
theorem State.readByte_ok {s : State} {a : Nat} (h : a < Config.memSize) : s.readByte a = .ok (Memory.get s.font s.mem a) :=
  memRead_ok h

theorem State.readByte_error {s : State} {a : Nat} (h : Config.memSize ≤ a) : s.readByte a = .error (outOfRange a) :=
  memRead_error h

/-- Two memories in the canonical form that read alike are the same data. -/
theorem Memory.eq_of_get_eq {m m' : Memory} (hm : Memory.wf f m) (hm' : Memory.wf f m')
    (h : ∀ a, Memory.get f m a = Memory.get f m' a) : m = m' := by
  induction m generalizing m' with
  | nil =>
    cases m' with
    | nil => rfl
    | cons c m' =>
      have := h c.1
      rw [Memory.get, Memory.get, if_pos rfl] at this
      exact absurd this.symm (hm'.2 c (by simp)).2
  | cons c m ih =>
    have hc := (hm.2 c (by simp)).2
    have ⟨hcm, hsm⟩ := List.pairwise_cons.1 hm.1
    cases m' with
    | nil =>
      have := h c.1
      rw [Memory.get, Memory.get, if_pos rfl] at this
      exact absurd this hc
    | cons d m' =>
      have hd := (hm'.2 d (by simp)).2
      have ⟨hdm, hsm'⟩ := List.pairwise_cons.1 hm'.1
      have hkey : c.1 = d.1 := by
        rcases Nat.lt_trichotomy c.1 d.1 with hlt | he | hlt
        · have := h c.1
          rw [Memory.get, if_pos rfl, Memory.get_of_above] at this
          · exact absurd this hc
          · intro e he'
            rcases List.mem_cons.1 he' with rfl | he'
            · exact hlt
            · exact Nat.lt_trans hlt (hdm e he')
        · exact he
        · have := h d.1
          rw [Memory.get_of_above, Memory.get, if_pos rfl] at this
          · exact absurd this.symm hd
          · intro e he'
            rcases List.mem_cons.1 he' with rfl | he'
            · exact hlt
            · exact Nat.lt_trans hlt (hcm e he')
      have hval : c.2 = d.2 := by
        have := h c.1
        rwa [Memory.get, if_pos rfl, Memory.get, if_pos hkey.symm] at this
      have hcd : c = d := Prod.ext hkey hval
      subst hcd
      refine congrArg (c :: ·) (ih ⟨hsm, fun e he => hm.2 e (by simp [he])⟩ ⟨hsm', fun e he => hm'.2 e (by simp [he])⟩ fun a => ?_)
      have := h a
      rw [Memory.get, Memory.get] at this
      by_cases ha : c.1 = a
      · subst ha; rw [Memory.get_of_above hcm, Memory.get_of_above hdm]
      · rwa [if_neg ha, if_neg ha] at this

end Sys2Proof.Machine
end

