-- ==== Sys2Proof/Laws/Registers.lean ====
section
/-! SUPPORT. The register block, the call stack, the keypad and the operand forms: what each shared operation can do (spec 10_state.md R31 to R36, 30_encoding.md R92). -/

namespace Sys2Proof.Machine

/-- A register after a block was loaded from register k on (R195). -/
theorem setBlock_get (v : Vector Byte 16) (k : Nat) (bs : List Byte) (r : Fin 16) :
    (setBlock v k bs)[r] = if h : k ≤ r.val ∧ r.val < k + bs.length then bs[r.val - k] else v[r] := by
  induction bs generalizing v k with
  | nil => rw [setBlock, dif_neg (by rw [List.length_nil]; omega)]
  | cons b bs ih =>
    rw [setBlock, ih]
    simp only [List.length_cons, Fin.getElem_fin, Vector.getElem_setIfInBounds]
    by_cases h0 : k = r.val
    · rw [dif_neg (by omega), if_pos h0, dif_pos (by omega)]
      simp [h0]
    · by_cases h1 : k + 1 ≤ r.val ∧ r.val < k + 1 + bs.length
      · rw [dif_pos h1, dif_pos (by omega), List.getElem_cons, dif_neg (by omega)]
        congr 1
      · rw [dif_neg h1, if_neg h0, dif_neg (by omega)]

@[simp] theorem takeBlock_length (v : Vector Byte 16) (x : Reg) : (takeBlock v x).length = x.val + 1 := by
  simp [takeBlock]

/-- The k-th byte of a stored block is register k (R194). -/
theorem takeBlock_getElem (v : Vector Byte 16) (x k : Reg) (h : k.val < (takeBlock v x).length) :
    (takeBlock v x)[k.val] = v[k] := by
  simp [takeBlock]

/-- What a push can do (R32). -/
theorem push_cases (s : State) (w : Word) :
    (∃ k : Fin 16, s.sp.val = k.val ∧ push s w = .ok { s with stack := s.stack.set k w, sp := k.succ }) ∨
    (s.sp.val = 16 ∧ push s w = .error .stackOverflow) := by
  by_cases h : s.sp.val < 16
  · exact .inl ⟨⟨s.sp.val, h⟩, rfl, by rw [push, dif_pos h]; rfl⟩
  · exact .inr ⟨by have := s.sp.isLt; omega, by rw [push, dif_neg h]⟩

/-- What a pop can do (R32). -/
theorem pop_cases (s : State) :
    (∃ k : Fin 16, s.sp.val = k.val + 1 ∧ pop s = .ok (s.stack[k], { s with sp := k.castSucc })) ∨
    (s.sp.val = 0 ∧ pop s = .error .stackUnderflow) := by
  by_cases h : s.sp.val = 0
  · exact .inr ⟨h, by rw [pop, dif_pos h]⟩
  · have hlt := s.sp.isLt
    exact .inl ⟨⟨s.sp.val - 1, by omega⟩, by simp only; omega, by rw [pop, dif_neg h]; rfl⟩

/-- No key is pressed exactly where there is no lowest pressed key (R232). -/
theorem lowestKey_eq_none {key : Vector Bool 16} : lowestKey key = none ↔ ∀ k : Fin 16, key[k] = false := by
  simp [lowestKey]

/-- The lowest pressed key is pressed, and no lower one is (R232). -/
theorem lowestKey_eq_some {key : Vector Bool 16} {k : Fin 16} :
    lowestKey key = some k ↔ key[k] = true ∧ ∀ j : Fin 16, j < k → key[j] = false := by
  constructor
  · intro h
    refine ⟨List.find?_some (p := fun k => key[k]) h, fun j hj => ?_⟩
    obtain ⟨-, as, bs, he, hn⟩ := List.find?_eq_some_iff_append.1 h
    have hpw : (List.finRange 16).Pairwise (· < ·) := List.pairwise_lt_finRange 16
    rw [he] at hpw
    have hj' : j ∈ as ++ k :: bs := he ▸ List.mem_finRange j
    rcases List.mem_append.1 hj' with hm | hm
    · simpa using hn j hm
    · rcases List.mem_cons.1 hm with rfl | hm
      · exact absurd hj (lt_irrefl _)
      · have := (List.pairwise_cons.1 (List.pairwise_append.1 hpw).2.1).1 j hm
        exact absurd hj (not_lt_of_gt this)
  · rintro ⟨hk, hlt⟩
    cases h : lowestKey key with
    | none => rw [lowestKey_eq_none.1 h k] at hk; cases hk
    | some j =>
      have hj := List.find?_some (p := fun k => key[k]) h
      obtain ⟨-, as, bs, he, hn⟩ := List.find?_eq_some_iff_append.1 h
      have hpw : (List.finRange 16).Pairwise (· < ·) := List.pairwise_lt_finRange 16
      rw [he] at hpw
      have hk' : k ∈ as ++ j :: bs := he ▸ List.mem_finRange k
      rcases List.mem_append.1 hk' with hm | hm
      · have := hn k hm; simp [hk] at this
      · rcases List.mem_cons.1 hm with rfl | hm
        · rfl
        · have hjk := (List.pairwise_cons.1 (List.pairwise_append.1 hpw).2.1).1 k hm
          rw [hlt j hjk] at hj; cases hj

/-- What reading a key index can do (R230, R231). -/
theorem keyIndex_cases (b : Byte) :
    (∃ k : Fin 16, b.toNat = k.val ∧ keyIndex b = .ok k) ∨ (16 ≤ b.toNat ∧ keyIndex b = .error (.keyIndexOutOfRange b)) := by
  by_cases h : b.toNat < 16
  · exact .inl ⟨⟨b.toNat, h⟩, rfl, dif_pos h⟩
  · exact .inr ⟨by omega, dif_neg h⟩

@[simp] theorem zextByte_toNat (b : Byte) : (zextByte b).toNat = b.toNat := by
  simp [zextByte]; omega

@[simp] theorem zextAddr_toNat (a : Addr) : (zextAddr a).toNat = a.toNat := by
  simp [zextAddr]; omega

@[simp] theorem flagByte_toNat (b : Bool) : (flagByte b).toNat = if b then 1 else 0 := by cases b <;> rfl

theorem flagByte_eq_one {b : Bool} : flagByte b = 1 ↔ b = true := by cases b <;> decide

theorem flagByte_zero_or_one (b : Bool) : flagByte b = 0 ∨ flagByte b = 1 := by cases b <;> decide

/-- A timer counted down (R253). -/
theorem countDown_toNat (t : Byte) : (countDown t).toNat = t.toNat - 1 := by
  unfold countDown
  split
  · next h => rw [BitVec.toNat_sub_of_le (show 1 ≤ t.toNat from h)]; rfl
  · omega

@[simp] theorem decimalDigits_length (b : Byte) : (decimalDigits b).length = 3 := rfl

/-- The payload of an out-of-range block at I: I where I is out of range itself, else 0x1000 (R68, R69). -/
theorem outOfRange_max (w : Word) :
    outOfRange (max w.toNat Config.memSize) = .memoryOutOfRange (if 0x1000 ≤ w then w else 0x1000) := by
  have hm : Config.memSize = 4096 := rfl
  by_cases h : (0x1000 : Word) ≤ w
  · have h' : 4096 ≤ w.toNat := h
    rw [if_pos h, hm, Nat.max_eq_left h', outOfRange, BitVec.ofNat_toNat]
    simp
  · have h' : ¬ 4096 ≤ w.toNat := h
    rw [if_neg h, hm, Nat.max_eq_right (by omega)]
    rfl

end Sys2Proof.Machine
end

