-- ==== Sys2Proof/Laws/Exec.lean ====
section
/-! SUPPORT. What the instructions that can fail or choose can do: one lemma each, and each outcome of it (spec 41_control_flow.md, 43_index_memory.md, 44_display.md, 45_keypad_timers.md). The other instructions' outcomes are theirs by definition. -/

namespace Sys2Proof.Machine

theorem exec_ret_cases (s : State) :
    (∃ k : Fin 16, s.sp.val = k.val + 1 ∧ exec .ret s = .next { s with sp := k.castSucc, pc := s.stack[k] }) ∨
    (s.sp.val = 0 ∧ exec .ret s = .fault .stackUnderflow) := by
  rcases pop_cases s with ⟨k, hk, h⟩ | ⟨h0, h⟩
  · exact .inl ⟨k, hk, by rw [exec, execRet, h]; rfl⟩
  · exact .inr ⟨h0, by rw [exec, execRet, h]; rfl⟩

theorem exec_call_cases (nnn : Addr) (s : State) :
    (∃ k : Fin 16, s.sp.val = k.val ∧
      exec (.call nnn) s = .next { s with stack := s.stack.set k s.pc, sp := k.succ, pc := zextAddr nnn }) ∨
    (s.sp.val = 16 ∧ exec (.call nnn) s = .fault .stackOverflow) := by
  rcases push_cases s s.pc with ⟨k, hk, h⟩ | ⟨h0, h⟩
  · exact .inl ⟨k, hk, by rw [exec, execCall, h]; rfl⟩
  · exact .inr ⟨h0, by rw [exec, execCall, h]; rfl⟩

theorem exec_skp_cases (x : Reg) (s : State) :
    (∃ k : Fin 16, s.v[x].toNat = k.val ∧ exec (.skp x) s = .next (s.skipIf s.key[k])) ∨
    (16 ≤ s.v[x].toNat ∧ exec (.skp x) s = .fault (.keyIndexOutOfRange s.v[x])) := by
  rcases keyIndex_cases s.v[x] with ⟨k, hk, h⟩ | ⟨h0, h⟩
  · exact .inl ⟨k, hk, by rw [exec, execSkp, State.reg_eq, h]⟩
  · exact .inr ⟨h0, by rw [exec, execSkp, State.reg_eq, h]; rfl⟩

theorem exec_sknp_cases (x : Reg) (s : State) :
    (∃ k : Fin 16, s.v[x].toNat = k.val ∧ exec (.sknp x) s = .next (s.skipIf (!s.key[k]))) ∨
    (16 ≤ s.v[x].toNat ∧ exec (.sknp x) s = .fault (.keyIndexOutOfRange s.v[x])) := by
  rcases keyIndex_cases s.v[x] with ⟨k, hk, h⟩ | ⟨h0, h⟩
  · exact .inl ⟨k, hk, by rw [exec, execSknp, State.reg_eq, h]⟩
  · exact .inr ⟨h0, by rw [exec, execSknp, State.reg_eq, h]; rfl⟩

theorem exec_ldVxK_cases (x : Reg) (s : State) :
    ((∀ k : Fin 16, s.key[k] = false) ∧ exec (.ldVxK x) s = .next (s.setPc (s.pc - 2))) ∨
    (∃ k : Fin 16, (s.key[k] = true ∧ ∀ j : Fin 16, j < k → s.key[j] = false) ∧
      exec (.ldVxK x) s = .next (s.setV x (BitVec.ofNat 8 k.val))) := by
  cases h : lowestKey s.key with
  | none => exact .inl ⟨lowestKey_eq_none.1 h, by rw [exec, execLdVxK, h]⟩
  | some k => exact .inr ⟨k, lowestKey_eq_some.1 h, by rw [exec, execLdVxK, h]⟩

/-- The bytes of a block at I, as the reads of R69 give them. -/
def blockAtI (s : State) (n : Nat) : List Byte := (List.range n).map fun k => Memory.get s.font s.mem (s.indexed k)

@[simp] theorem blockAtI_length (s : State) (n : Nat) : (blockAtI s n).length = n := by simp [blockAtI]

theorem blockAtI_getElem (s : State) {n k : Nat} (h : k < (blockAtI s n).length) :
    (blockAtI s n)[k] = Memory.get s.font s.mem (s.indexed k) := by simp [blockAtI]

theorem readAtI_cases (s : State) (n : Nat) :
    ((n = 0 ∨ s.indexed n ≤ 0x1000) ∧ s.readAtI n = .ok (blockAtI s n)) ∨
    ((0 < n ∧ 0x1000 < s.indexed n) ∧ s.readAtI n = .error (.memoryOutOfRange (if 0x1000 ≤ s.i then s.i else 0x1000))) := by
  rw [← outOfRange_max]
  exact readBlock_cases s.mem s.i.toNat n

theorem exec_drw_cases (x y : Reg) (n : Fin 16) (s : State) :
    ((n.val = 0 ∨ s.indexed n.val ≤ 0x1000) ∧
      let cv := (Canvas.mk s.fb false).drawRows s.v[x].toNat s.v[y].toNat (blockAtI s n.val)
      exec (.drw x y n) s = .next { s with fb := cv.fb, v := s.v.set 15 (collisionFlag cv) }) ∨
    ((0 < n.val ∧ 0x1000 < s.indexed n.val) ∧
      exec (.drw x y n) s = .fault (.memoryOutOfRange (if 0x1000 ≤ s.i then s.i else 0x1000))) := by
  rcases readAtI_cases s n.val with ⟨hr, h⟩ | ⟨hr, h⟩
  · exact .inl ⟨hr, by rw [exec, execDrw, h]; rfl⟩
  · exact .inr ⟨hr, by rw [exec, execDrw, h]; rfl⟩

theorem exec_ldVxMem_cases (x : Reg) (s : State) :
    (s.indexed x.val < 0x1000 ∧ exec (.ldVxMem x) s = .next { s with v := setBlock s.v 0 (blockAtI s (x.val + 1)) }) ∨
    (0x1000 ≤ s.indexed x.val ∧
      exec (.ldVxMem x) s = .fault (.memoryOutOfRange (if 0x1000 ≤ s.i then s.i else 0x1000))) := by
  have hi : s.indexed (x.val + 1) = s.indexed x.val + 1 := by simp only [State.indexed]; omega
  rcases readAtI_cases s (x.val + 1) with ⟨hr, h⟩ | ⟨hr, h⟩
  · exact .inl ⟨by omega, by rw [exec, execLdVxMem, h]⟩
  · exact .inr ⟨by omega, by rw [exec, execLdVxMem, h]; rfl⟩

/-- What a store of a block at I can do: it stores exactly its bytes, keeping the canonical form, or it fails and stores nothing. -/
theorem writeAtI_cases (s : State) {bs : List Byte} (hbs : bs ≠ []) :
    (s.indexed bs.length ≤ 0x1000 ∧ ∃ m, s.writeAtI bs = .ok { s with mem := m } ∧
      (s.MemWf → Memory.wf s.font m ∧ ∀ a, Memory.get s.font m a = blockAfter s.font s.mem (s.indexed 0) bs a)) ∨
    (0x1000 < s.indexed bs.length ∧
      s.writeAtI bs = .error (.memoryOutOfRange (if 0x1000 ≤ s.i then s.i else 0x1000))) := by
  rw [← outOfRange_max]
  rcases writeBytes_cases s (s.indexed 0) bs with ⟨hr, h⟩ | ⟨⟨-, hr⟩, h⟩
  · exact .inl ⟨hr.resolve_left hbs, h⟩
  · exact .inr ⟨hr, h⟩

theorem exec_ldBVx_cases (x : Reg) (s : State) :
    (s.indexed 2 < 0x1000 ∧ ∃ m, exec (.ldBVx x) s = .next { s with mem := m } ∧
      (s.MemWf → Memory.wf s.font m ∧ ∀ a, Memory.get s.font m a = blockAfter s.font s.mem (s.indexed 0) (decimalDigits s.v[x]) a)) ∨
    (0x1000 ≤ s.indexed 2 ∧ exec (.ldBVx x) s = .fault (.memoryOutOfRange (if 0x1000 ≤ s.i then s.i else 0x1000))) := by
  have hi : s.indexed (decimalDigits s.v[x]).length = s.indexed 2 + 1 := rfl
  rcases writeAtI_cases s (bs := decimalDigits s.v[x]) (by simp [decimalDigits]) with ⟨hr, m, h, hm⟩ | ⟨hr, h⟩
  · exact .inl ⟨by omega, m, by rw [exec, execLdBVx, State.reg_eq, h], hm⟩
  · exact .inr ⟨by omega, by rw [exec, execLdBVx, State.reg_eq, h]; rfl⟩

theorem exec_ldMemVx_cases (x : Reg) (s : State) :
    (s.indexed x.val < 0x1000 ∧ ∃ m, exec (.ldMemVx x) s = .next { s with mem := m } ∧
      (s.MemWf → Memory.wf s.font m ∧ ∀ a, Memory.get s.font m a = blockAfter s.font s.mem (s.indexed 0) (takeBlock s.v x) a)) ∨
    (0x1000 ≤ s.indexed x.val ∧
      exec (.ldMemVx x) s = .fault (.memoryOutOfRange (if 0x1000 ≤ s.i then s.i else 0x1000))) := by
  have hi : s.indexed (takeBlock s.v x).length = s.indexed x.val + 1 := by
    simp only [State.indexed, takeBlock_length]; omega
  have hne : takeBlock s.v x ≠ [] := fun h => by
    have := takeBlock_length s.v x
    rw [h, List.length_nil] at this; omega
  rcases writeAtI_cases s hne with ⟨hr, m, h, hm⟩ | ⟨hr, h⟩
  · exact .inl ⟨by omega, m, by rw [exec, execLdMemVx, h], hm⟩
  · exact .inr ⟨by omega, by rw [exec, execLdMemVx, h]; rfl⟩

end Sys2Proof.Machine
end

