-- ==== Sys2Proof/Laws/PerInstr.lean ====
section
/-! SUPPORT. The family EncodesInItsRow: each instruction's row stands in the opcode table and its encoding matches that row, `op & mask = match` (spec 30_encoding.md R93), one lemma per constructor. -/

namespace Sys2Proof.Laws

theorem and_ones4 (d : BitVec 4) : d &&& 0xF = d := BitVec.and_allOnes

theorem and_ones8 (d : BitVec 8) : d &&& 0xFF = d := BitVec.and_allOnes

theorem and_zeros {n : Nat} (d : BitVec n) : d &&& 0 = 0 := BitVec.and_zero

theorem ofFin_zero : BitVec.ofFin (w := 4) 0 = 0 := rfl

theorem wordNNN_and (d : BitVec 4) (nnn : Addr) : wordNNN d nnn &&& wordNNN 0xF 0 = wordNNN d 0 := by
  rw [wordNNN, wordNNN, BitVec.and_append, and_ones4, and_zeros]; rfl

theorem wordXNN_and (d : BitVec 4) (x : Reg) (nn : Byte) : wordXNN d x nn &&& wordXNN 0xF 0 0 = wordXNN d 0 0 := by
  rw [wordXNN, wordXNN, BitVec.and_append, BitVec.and_append, and_ones4, ofFin_zero, and_zeros, and_zeros]; rfl

theorem wordXNN_and_low (d : BitVec 4) (x : Reg) (nn : Byte) : wordXNN d x nn &&& wordXNN 0xF 0 0xFF = wordXNN d 0 nn := by
  rw [wordXNN, wordXNN, BitVec.and_append, BitVec.and_append, and_ones4, and_ones8, ofFin_zero, and_zeros]; rfl

theorem wordXYN_and (d : BitVec 4) (x y : Reg) (n : BitVec 4) : wordXYN d x y n &&& wordXYN 0xF 0 0 0xF = wordXYN d 0 0 n := by
  rw [wordXYN, wordXYN, BitVec.and_append, BitVec.and_append, BitVec.and_append, and_ones4, and_ones4, ofFin_zero, and_zeros,
    and_zeros]; rfl

theorem wordXYN_and_high (d : BitVec 4) (x y : Reg) (n : BitVec 4) : wordXYN d x y n &&& wordXYN 0xF 0 0 0 = wordXYN d 0 0 0 := by
  rw [wordXYN, wordXYN, BitVec.and_append, BitVec.and_append, BitVec.and_append, and_ones4, ofFin_zero, and_zeros, and_zeros,
    and_zeros]; rfl

namespace EncodesInItsRow

/-- A row stands in the table when the table's list of rows, computed, holds it. -/
theorem row_mem {r : OpcodeRow} (h : opcodeTable.contains r = true) : r ∈ opcodeTable := List.contains_iff_mem.1 h

/-- The instruction's row is one of the table's, and its encoding matches it (R93). -/
def Statement (i : Instr) : Prop := i.row ∈ opcodeTable ∧ i.row.hits (encode i) = true

theorem cls : Statement .cls := ⟨by decide, by decide⟩
theorem ret : Statement .ret := ⟨by decide, by decide⟩
theorem jp (nnn : Addr) : Statement (.jp nnn) := ⟨row_mem rfl, beq_iff_eq.2 (wordNNN_and _ nnn)⟩
theorem call (nnn : Addr) : Statement (.call nnn) := ⟨row_mem rfl, beq_iff_eq.2 (wordNNN_and _ nnn)⟩
theorem seImm (x : Reg) (nn : Byte) : Statement (.seImm x nn) := ⟨row_mem rfl, beq_iff_eq.2 (wordXNN_and _ x nn)⟩
theorem sneImm (x : Reg) (nn : Byte) : Statement (.sneImm x nn) := ⟨row_mem rfl, beq_iff_eq.2 (wordXNN_and _ x nn)⟩
theorem seReg (x y : Reg) : Statement (.seReg x y) := ⟨row_mem rfl, beq_iff_eq.2 (wordXYN_and _ x y _)⟩
theorem ldImm (x : Reg) (nn : Byte) : Statement (.ldImm x nn) := ⟨row_mem rfl, beq_iff_eq.2 (wordXNN_and _ x nn)⟩
theorem addImm (x : Reg) (nn : Byte) : Statement (.addImm x nn) := ⟨row_mem rfl, beq_iff_eq.2 (wordXNN_and _ x nn)⟩
theorem ldReg (x y : Reg) : Statement (.ldReg x y) := ⟨row_mem rfl, beq_iff_eq.2 (wordXYN_and _ x y _)⟩
theorem orReg (x y : Reg) : Statement (.orReg x y) := ⟨row_mem rfl, beq_iff_eq.2 (wordXYN_and _ x y _)⟩
theorem andReg (x y : Reg) : Statement (.andReg x y) := ⟨row_mem rfl, beq_iff_eq.2 (wordXYN_and _ x y _)⟩
theorem xorReg (x y : Reg) : Statement (.xorReg x y) := ⟨row_mem rfl, beq_iff_eq.2 (wordXYN_and _ x y _)⟩
theorem addReg (x y : Reg) : Statement (.addReg x y) := ⟨row_mem rfl, beq_iff_eq.2 (wordXYN_and _ x y _)⟩
theorem sub (x y : Reg) : Statement (.sub x y) := ⟨row_mem rfl, beq_iff_eq.2 (wordXYN_and _ x y _)⟩
theorem shr (x y : Reg) : Statement (.shr x y) := ⟨row_mem rfl, beq_iff_eq.2 (wordXYN_and _ x y _)⟩
theorem subn (x y : Reg) : Statement (.subn x y) := ⟨row_mem rfl, beq_iff_eq.2 (wordXYN_and _ x y _)⟩
theorem shl (x y : Reg) : Statement (.shl x y) := ⟨row_mem rfl, beq_iff_eq.2 (wordXYN_and _ x y _)⟩
theorem sneReg (x y : Reg) : Statement (.sneReg x y) := ⟨row_mem rfl, beq_iff_eq.2 (wordXYN_and _ x y _)⟩
theorem ldI (nnn : Addr) : Statement (.ldI nnn) := ⟨row_mem rfl, beq_iff_eq.2 (wordNNN_and _ nnn)⟩
theorem jpV0 (nnn : Addr) : Statement (.jpV0 nnn) := ⟨row_mem rfl, beq_iff_eq.2 (wordNNN_and _ nnn)⟩
theorem rnd (x : Reg) (nn : Byte) : Statement (.rnd x nn) := ⟨row_mem rfl, beq_iff_eq.2 (wordXNN_and _ x nn)⟩
theorem drw (x y : Reg) (n : Fin 16) : Statement (.drw x y n) := ⟨row_mem rfl, beq_iff_eq.2 (wordXYN_and_high _ x y _)⟩
theorem skp (x : Reg) : Statement (.skp x) := ⟨row_mem rfl, beq_iff_eq.2 (wordXNN_and_low _ x _)⟩
theorem sknp (x : Reg) : Statement (.sknp x) := ⟨row_mem rfl, beq_iff_eq.2 (wordXNN_and_low _ x _)⟩
theorem ldVxDt (x : Reg) : Statement (.ldVxDt x) := ⟨row_mem rfl, beq_iff_eq.2 (wordXNN_and_low _ x _)⟩
theorem ldVxK (x : Reg) : Statement (.ldVxK x) := ⟨row_mem rfl, beq_iff_eq.2 (wordXNN_and_low _ x _)⟩
theorem ldDtVx (x : Reg) : Statement (.ldDtVx x) := ⟨row_mem rfl, beq_iff_eq.2 (wordXNN_and_low _ x _)⟩
theorem ldStVx (x : Reg) : Statement (.ldStVx x) := ⟨row_mem rfl, beq_iff_eq.2 (wordXNN_and_low _ x _)⟩
theorem addIVx (x : Reg) : Statement (.addIVx x) := ⟨row_mem rfl, beq_iff_eq.2 (wordXNN_and_low _ x _)⟩
theorem ldFVx (x : Reg) : Statement (.ldFVx x) := ⟨row_mem rfl, beq_iff_eq.2 (wordXNN_and_low _ x _)⟩
theorem ldBVx (x : Reg) : Statement (.ldBVx x) := ⟨row_mem rfl, beq_iff_eq.2 (wordXNN_and_low _ x _)⟩
theorem ldMemVx (x : Reg) : Statement (.ldMemVx x) := ⟨row_mem rfl, beq_iff_eq.2 (wordXNN_and_low _ x _)⟩
theorem ldVxMem (x : Reg) : Statement (.ldVxMem x) := ⟨row_mem rfl, beq_iff_eq.2 (wordXNN_and_low _ x _)⟩

end EncodesInItsRow

end Sys2Proof.Laws
end

