-- ==== Sys2Proof/Laws/Screen.lean ====
section
/-! SUPPORT. The framebuffer: a cell after a toggle, and what drawing a sprite can do (spec 44_display.md R211 to R214). -/

namespace Sys2Proof.Machine

@[simp] theorem clearScreen_cell (x y : Nat) : clearScreen.cell x y = false := by
  simp [clearScreen, Screen.cell]

/-- Column and row count modulo the screen's size (R212). -/
theorem Screen.cell_mod (fb : Screen) (x y : Nat) : fb.cell (x % 64) (y % 32) = fb.cell x y := by
  simp [Screen.cell, Config.fbWidth, Config.fbHeight]

/-- The cell at x + 64·y is cell (x, y) (R37). -/
theorem Screen.index_eq (fb : Screen) {x y : Nat} (hx : x < 64) : fb.index (x + 64 * y) = fb.cell x y := by
  have h1 : (x + 64 * y) % 64 = x := by omega
  have h2 : (x + 64 * y) / 64 = y := by omega
  simp only [Screen.index, Config.fbWidth, h1, h2]

/-- Two framebuffers with the same cells are the same. -/
theorem Screen.ext_cell {f g : Screen} (h : ∀ x y, x < 64 → y < 32 → f.cell x y = g.cell x y) : f = g := by
  apply Vector.ext
  intro y hy
  apply BitVec.eq_of_getLsbD_eq
  intro x hx
  have := h x y hx hy
  simpa only [Screen.cell, Config.fbWidth, Config.fbHeight, Nat.mod_eq_of_lt hx, Nat.mod_eq_of_lt hy] using this

/-- A toggle inverts its cell and no other (R211). -/
theorem Screen.cell_toggle (fb : Screen) (x y x' y' : Nat) :
    (fb.toggle x y).cell x' y' = (fb.cell x' y' ^^ decide (x % 64 = x' % 64 ∧ y % 32 = y' % 32)) := by
  simp only [Screen.toggle, Screen.cell, Config.fbWidth, Config.fbHeight]
  rw [Vector.getElem_set]
  by_cases hy : y % 32 = y' % 32
  · rw [if_pos hy, BitVec.getLsbD_xor, BitVec.getLsbD_twoPow]
    have hx : x' % 64 < 64 := Nat.mod_lt _ (by decide)
    simp only [hy, and_true]
    congr 1
    simp only [show x % 64 < 64 from Nat.mod_lt _ (by decide), decide_true, Bool.true_and]
  · simp [hy]

/-- The columns of one sprite row, drawn in any order without repeats: each set bit inverts its own cell, and the row
collides when a set bit lands on a lit cell (R211, R213, R214). -/
theorem Canvas.drawColumns (x0 y : Nat) (row : Byte) (cs : List Nat) (hlt : ∀ c ∈ cs, c < 8) (hnd : cs.Nodup) (cv : Canvas) :
    let cv' := cs.foldl (fun cv c => if spritePixel row c then cv.hit (x0 + c) y else cv) cv
    (∀ x' y', cv'.fb.cell x' y' = (cv.fb.cell x' y' ^^
      decide ((∃ c ∈ cs, spritePixel row c = true ∧ (x0 + c) % 64 = x' % 64) ∧ y % 32 = y' % 32))) ∧
    (cv'.collided = true ↔ cv.collided = true ∨ ∃ c ∈ cs, spritePixel row c = true ∧ cv.fb.cell (x0 + c) y = true) := by
  induction cs generalizing cv with
  | nil => simp
  | cons c cs ih =>
    obtain ⟨hc, hnd'⟩ := List.nodup_cons.1 hnd
    have hd : ∀ d ∈ cs, (x0 + c) % 64 ≠ (x0 + d) % 64 := by
      intro d hd he
      have h1 := hlt c (by simp)
      have h2 := hlt d (by simp [hd])
      exact hc (by rwa [show c = d by omega])
    rw [List.foldl_cons]
    by_cases hp : spritePixel row c = true
    · rw [if_pos hp]
      obtain ⟨hcell, hcol⟩ := ih (fun d h => hlt d (by simp [h])) hnd' (cv.hit (x0 + c) y)
      refine ⟨fun x' y' => ?_, ?_⟩
      · rw [hcell, Canvas.hit, Screen.cell_toggle, Bool.xor_assoc]
        congr 1
        by_cases hy : y % 32 = y' % 32
        · simp only [hy, and_true, List.mem_cons, exists_eq_or_imp, hp, true_and]
          by_cases hx : (x0 + c) % 64 = x' % 64
          · have : ¬ ∃ d ∈ cs, spritePixel row d = true ∧ (x0 + d) % 64 = x' % 64 := by
              rintro ⟨d, hdm, -, he⟩
              exact hd d hdm (hx.trans he.symm)
            simp [hx, this]
          · simp [hx]
        · simp [hy]
      · rw [hcol]
        simp only [Canvas.hit, Bool.or_eq_true, List.mem_cons, exists_eq_or_imp, hp, true_and, or_assoc]
        refine or_congr_right (or_congr_right (exists_congr fun d => and_congr_right fun hdm => and_congr_right fun _ => ?_))
        rw [Screen.cell_toggle, decide_eq_false (fun h => hd d hdm h.1), Bool.xor_false]
    · rw [if_neg hp]
      obtain ⟨hcell, hcol⟩ := ih (fun d h => hlt d (by simp [h])) hnd' cv
      exact ⟨fun x' y' => by rw [hcell]; simp [hp], by rw [hcol]; simp [hp]⟩

/-- Some set bit of the listed sprite rows, drawn from (x0, y0), lands on cell (x, y) (R212). -/
def Covers (rows : List Byte) (x0 y0 x y : Nat) : Prop :=
  ∃ r, ∃ h : r < rows.length, ∃ c, c < 8 ∧ spritePixel rows[r] c = true ∧ (x0 + c) % 64 = x % 64 ∧ (y0 + r) % 32 = y % 32

/-- Some set bit of the listed sprite rows, drawn from (x0, y0), lands on a lit cell of fb (R213). -/
def Collides (fb : Screen) (rows : List Byte) (x0 y0 : Nat) : Prop :=
  ∃ r, ∃ h : r < rows.length, ∃ c, c < 8 ∧ spritePixel rows[r] c = true ∧ fb.cell (x0 + c) (y0 + r) = true

theorem Covers.cons_iff (row : Byte) (rows : List Byte) (x0 y0 x y : Nat) :
    Covers (row :: rows) x0 y0 x y ↔
      ((∃ c ∈ List.range 8, spritePixel row c = true ∧ (x0 + c) % 64 = x % 64) ∧ y0 % 32 = y % 32) ∨
      Covers rows x0 (y0 + 1) x y := by
  constructor
  · rintro ⟨r, h, c, hc, hp, hx, hy⟩
    cases r with
    | zero => exact .inl ⟨⟨c, List.mem_range.2 hc, hp, hx⟩, hy⟩
    | succ r =>
      exact .inr ⟨r, by simpa using h, c, hc, hp, hx, by rw [← hy]; congr 1; omega⟩
  · rintro (⟨⟨c, hc, hp, hx⟩, hy⟩ | ⟨r, h, c, hc, hp, hx, hy⟩)
    · exact ⟨0, by simp, c, List.mem_range.1 hc, hp, hx, hy⟩
    · exact ⟨r + 1, by simpa using h, c, hc, hp, hx, by rw [← hy]; congr 1; omega⟩

theorem Collides.cons_iff (fb : Screen) (row : Byte) (rows : List Byte) (x0 y0 : Nat) :
    Collides fb (row :: rows) x0 y0 ↔
      (∃ c ∈ List.range 8, spritePixel row c = true ∧ fb.cell (x0 + c) y0 = true) ∨ Collides fb rows x0 (y0 + 1) := by
  constructor
  · rintro ⟨r, h, c, hc, hp, hf⟩
    cases r with
    | zero => exact .inl ⟨c, List.mem_range.2 hc, hp, hf⟩
    | succ r => exact .inr ⟨r, by simpa using h, c, hc, hp, by rw [← hf]; congr 1; omega⟩
  · rintro (⟨c, hc, hp, hf⟩ | ⟨r, h, c, hc, hp, hf⟩)
    · exact ⟨0, by simp, c, List.mem_range.1 hc, hp, hf⟩
    · exact ⟨r + 1, by simpa using h, c, hc, hp, by rw [← hf]; congr 1; omega⟩

/-- What drawing at most 32 rows can do: exactly the covered cells are inverted, and the draw collides exactly when a
set bit lands on a cell that was lit before it (R211, R213, R214). -/
theorem Canvas.drawRows_spec (x0 : Nat) (rows : List Byte) : ∀ (y0 : Nat), rows.length ≤ 32 → ∀ (cv : Canvas),
    (∀ x y, ((cv.drawRows x0 y0 rows).fb.cell x y = true ↔ ¬ (cv.fb.cell x y = true ↔ Covers rows x0 y0 x y))) ∧
    ((cv.drawRows x0 y0 rows).collided = true ↔ cv.collided = true ∨ Collides cv.fb rows x0 y0) := by
  induction rows with
  | nil =>
    intro y0 _ cv
    have h1 : ∀ x y, ¬ Covers [] x0 y0 x y := by rintro x y ⟨r, h, -⟩; simp at h
    have h2 : ¬ Collides cv.fb [] x0 y0 := by rintro ⟨r, h, -⟩; simp at h
    exact ⟨fun x y => by simp [Canvas.drawRows, h1], by simp [Canvas.drawRows, h2]⟩
  | cons row rows ih =>
    intro y0 hlen cv
    rw [List.length_cons] at hlen
    obtain ⟨hcell, hcol⟩ := Canvas.drawColumns x0 y0 row (List.range 8) (fun c h => List.mem_range.1 h) List.nodup_range cv
    obtain ⟨hcell', hcol'⟩ := ih (y0 + 1) (by omega) (cv.drawRow x0 y0 row)
    rw [Canvas.drawRows]
    -- the later rows lie on other rows of the screen than the first
    have hrow : ∀ r, r < rows.length → y0 % 32 ≠ (y0 + 1 + r) % 32 := by intro r h; omega
    refine ⟨fun x y => ?_, ?_⟩
    · rw [hcell', Covers.cons_iff, show (cv.drawRow x0 y0 row).fb.cell x y = _ from hcell x y]
      by_cases hy : y0 % 32 = y % 32
      · have hno : ¬ Covers rows x0 (y0 + 1) x y := by
          rintro ⟨r, h, c, -, -, -, he⟩
          exact hrow r h (hy.trans he.symm)
        simp only [hno, or_false, iff_false]
        cases cv.fb.cell x y <;> simp [hy]
      · simp [hy]
    · rw [hcol', Collides.cons_iff, show ((cv.drawRow x0 y0 row).collided = true ↔ _) from hcol, or_assoc]
      refine or_congr_right (or_congr_right ?_)
      refine exists_congr fun r => exists_congr fun h => exists_congr fun c => and_congr_right fun _ => and_congr_right fun _ => ?_
      rw [show (cv.drawRow x0 y0 row).fb.cell (x0 + c) (y0 + 1 + r) = _ from hcell _ _,
        decide_eq_false (fun he => hrow r h he.2), Bool.xor_false]

end Sys2Proof.Machine
end

