-- ==== Sys2Proof/Laws/Step.lean ====
section
/-! SUPPORT. What a tick can do: the three ways it can go (spec 40_tick_cycle.md R120 to R124). -/

namespace Sys2Proof.Machine

/-- A fetch that stays in range reads the opcode (R65, R121). -/
theorem fetch_ok {s : State} {op : Word} (h : s.FetchesWord op) : fetch s = .ok op := by
  obtain ⟨hr, rfl⟩ := h
  rw [fetch, State.readByte_ok (by omega)]
  simp only
  rw [State.readByte_ok hr]

/-- A fetch that leaves memory fails at its lowest address of 0x1000 or more (R121). -/
theorem fetch_error {s : State} (h : Config.memSize ≤ s.pc.toNat + 1) :
    fetch s = .error (outOfRange (max s.pc.toNat Config.memSize)) := by
  rw [fetch]
  by_cases h0 : s.pc.toNat < Config.memSize
  · rw [State.readByte_ok h0]
    simp only
    rw [State.readByte_error h, Nat.max_eq_right (by omega), show s.pc.toNat + 1 = Config.memSize by omega]
  · rw [State.readByte_error (by omega), Nat.max_eq_left (by omega)]

theorem step_of_fetches {s : State} {op : Word} {i : Instr} (hf : s.FetchesWord op) (hd : decodeWord op = .ok i) :
    step s = exec i (advancePc s) := by
  rw [step, tick, fetch_ok hf]
  simp only [hd]

theorem step_of_illegal {s : State} {op : Word} {e : DecodeError} (hf : s.FetchesWord op) (hd : decodeWord op = .error e) :
    step s = .fault (.unknownOpcode op) := by
  rw [step, tick, fetch_ok hf]
  simp only [hd]
  rfl

theorem step_of_outOfRange {s : State} (h : Config.memSize ≤ s.pc.toNat + 1) :
    step s = .fault (outOfRange (max s.pc.toNat Config.memSize)) := by
  rw [step, tick, fetch_error h]
  rfl

/-- The three ways a tick can go: it runs the instruction at PC, or its word is illegal, or its fetch is out of range. -/
theorem step_cases (s : State) :
    (∃ op i, s.FetchesWord op ∧ decodeWord op = .ok i ∧ step s = exec i (advancePc s)) ∨
    (∃ op e, s.FetchesWord op ∧ decodeWord op = .error e ∧ step s = .fault (.unknownOpcode op)) ∨
    (Config.memSize ≤ s.pc.toNat + 1 ∧ step s = .fault (outOfRange (max s.pc.toNat Config.memSize))) := by
  by_cases h : s.pc.toNat + 1 < Config.memSize
  · have hf : s.FetchesWord _ := ⟨h, rfl⟩
    cases hd : decodeWord (wordOfBytes (Memory.get s.font s.mem s.pc.toNat) (Memory.get s.font s.mem (s.pc.toNat + 1))) with
    | ok i => exact .inl ⟨_, i, hf, hd, step_of_fetches hf hd⟩
    | error e => exact .inr (.inl ⟨_, e, hf, hd, step_of_illegal hf hd⟩)
  · exact .inr (.inr ⟨by omega, step_of_outOfRange (by omega)⟩)

/-- The word at PC is one. -/
theorem State.FetchesWord.unique {s : State} {op op' : Word} (h : s.FetchesWord op) (h' : s.FetchesWord op') : op = op' :=
  h.2.trans h'.2.symm

end Sys2Proof.Machine
end

