-- ==== Sys2Proof/Tests/Slice0.lean ====
section
/-! SUPPORT. The model's own tests. Every expected value stands in spec/95_test_vectors.md (its row is named), or is worked out by hand from the rule named. Then one witness for every statement with hypotheses. -/

namespace Sys2Proof.Tests

open Sys2Proof Sys2Proof.Machine

/-! ## Helpers -/

/-- The reset state with the listed registers. -/
def withV (l : List (Reg × Byte)) : State := l.foldl (fun s p => s.setV p.1 p.2) State.reset

/-- The state with the listed bytes stored from address a on. -/
def poke (s : State) (a : Nat) : List Byte → State
  | [] => s
  | b :: bs => poke { s with mem := Memory.put s.font s.mem a b } (a + 1) bs

/-- What is seen of the state after one step that runs word w at PC; none where the step does not complete. -/
def after {α : Type} (w : Nat) (s : State) (f : State → α) : Option α :=
  match step (s.withFetchWord 16 w) with
  | .next t => some (f t)
  | .fault _ => none
  | .refused _ => none

/-- The error of one step that runs word w at PC. -/
def failure (w : Nat) (s : State) : Option Fault :=
  match step (s.withFetchWord 16 w) with
  | .next _ => none
  | .fault e => some e
  | .refused _ => none

/-- V[a] and V[b]. -/
def two (a b : Reg) (t : State) : Byte × Byte := (t.v[a], t.v[b])

/-- The n bytes of memory from address a on. -/
def bytesAt (a n : Nat) (t : State) : List Byte := (List.range n).map fun k => Memory.get t.font t.mem (a + k)

/-- The indices of the lit cells among the first n. -/
def litBelow (n : Nat) (t : State) : List Nat := (List.range n).filter fun k => t.fb.index k

/-! ## Well-formedness: the ill-formed is refused -/

theorem test_wf_legalWord_refuses :
    [0x0000, 0x0123, 0x00E1, 0x00EF, 0x5121, 0x800F, 0x8008, 0x800D].map legalWord = List.replicate 8 false ∧
    [0x9121, 0xE000, 0xE09F, 0xE0A2, 0xF000, 0xF0FF, 0xF016, 0xF01F].map legalWord = List.replicate 8 false := by decide
theorem test_wf_legalWord_accepts : legalWord 0x00E0 = true ∧ legalWord 0x512F = false ∧ legalWord 0x5120 = true := by decide
theorem test_wf_romFits_refuses : romFits (List.replicate 3585 0) = false := by rw [romFits, List.length_replicate]; decide
theorem test_wf_romFits_accepts : romFits (List.replicate 3584 0) = true := by rw [romFits, List.length_replicate]; decide

/-! ## Decoding: a word of every constructor, written out from the pattern of R93; and words that are refused (T-F8) -/

theorem test_decode_control :
    decodeWord 0x00EE = .ok .ret ∧ decodeWord 0x1ABC = .ok (.jp 0xABC) ∧ decodeWord 0x2DEF = .ok (.call 0xDEF) ∧
    decodeWord 0x3A5C = .ok (.seImm 10 0x5C) ∧ decodeWord 0x4BC3 = .ok (.sneImm 11 0xC3) ∧
    decodeWord 0x5AB0 = .ok (.seReg 10 11) ∧ decodeWord 0x9CD0 = .ok (.sneReg 12 13) ∧
    decodeWord 0xBFED = .ok (.jpV0 0xFED) := ⟨rfl, rfl, rfl, rfl, rfl, rfl, rfl, rfl⟩
theorem test_decode_loads_and_logic :
    decodeWord 0x6D12 = .ok (.ldImm 13 0x12) ∧ decodeWord 0x7E34 = .ok (.addImm 14 0x34) ∧
    decodeWord 0x8120 = .ok (.ldReg 1 2) ∧ decodeWord 0x8341 = .ok (.orReg 3 4) ∧ decodeWord 0x8562 = .ok (.andReg 5 6) ∧
    decodeWord 0x8783 = .ok (.xorReg 7 8) := ⟨rfl, rfl, rfl, rfl, rfl, rfl⟩
theorem test_decode_arithmetic :
    decodeWord 0x89A4 = .ok (.addReg 9 10) ∧ decodeWord 0x8BC5 = .ok (.sub 11 12) ∧ decodeWord 0x8DE6 = .ok (.shr 13 14) ∧
    decodeWord 0x8F07 = .ok (.subn 15 0) ∧ decodeWord 0x812E = .ok (.shl 1 2) ∧ decodeWord 0xC3A5 = .ok (.rnd 3 0xA5) :=
  ⟨rfl, rfl, rfl, rfl, rfl, rfl⟩
theorem test_decode_index :
    decodeWord 0xA987 = .ok (.ldI 0x987) ∧ decodeWord 0xF61E = .ok (.addIVx 6) ∧ decodeWord 0xF729 = .ok (.ldFVx 7) ∧
    decodeWord 0xF833 = .ok (.ldBVx 8) ∧ decodeWord 0xF955 = .ok (.ldMemVx 9) ∧ decodeWord 0xFA65 = .ok (.ldVxMem 10) :=
  ⟨rfl, rfl, rfl, rfl, rfl, rfl⟩
theorem test_decode_display_keypad_timers :
    decodeWord 0x00E0 = .ok .cls ∧ decodeWord 0xD123 = .ok (.drw 1 2 3) ∧ decodeWord 0xE49E = .ok (.skp 4) ∧
    decodeWord 0xE5A1 = .ok (.sknp 5) ∧ decodeWord 0xF207 = .ok (.ldVxDt 2) ∧ decodeWord 0xF30A = .ok (.ldVxK 3) ∧
    decodeWord 0xF415 = .ok (.ldDtVx 4) ∧ decodeWord 0xF518 = .ok (.ldStVx 5) := ⟨rfl, rfl, rfl, rfl, rfl, rfl, rfl, rfl⟩
theorem test_decode_refuses :
    decodeWord 0x5121 = .error (.unknownOpcode 0x5121) ∧ decodeWord 0x8008 = .error (.unknownOpcode 0x8008) ∧
    decodeWord 0x00E1 = .error (.unknownOpcode 0x00E1) ∧ decodeWord 0xE0A2 = .error (.unknownOpcode 0xE0A2) ∧
    decodeWord 0xF016 = .error (.unknownOpcode 0xF016) := ⟨rfl, rfl, rfl, rfl, rfl⟩
theorem test_decode_table_word : decodeTableWord 16 0x37F0 = some (.seImm 7 0xF0) ∧ decodeTableWord 16 0x5121 = none := ⟨rfl, rfl⟩
theorem test_decode_short_input : decodeBytes [] = .error .truncated ∧ decodeBytes [0x60] = .error .truncated := ⟨rfl, rfl⟩

/-! ## The tick (T-F1 to T-F7) -/

theorem test_fetch_big_endian : after 0xA234 State.reset (fun t => (t.i, t.pc)) = some (0x0234, 0x0202) := by decide
theorem test_fetch_odd_pc : after 0x6012 { State.reset with pc := 0x201 } (fun t => (t.v[0], t.pc)) = some (0x12, 0x0203) := by decide
theorem test_fetch_last_word : after 0x6A01 { State.reset with pc := 0xFFE } (fun t => (t.v[10], t.pc)) = some (0x01, 0x1000) := by decide
theorem test_fetch_faults :
    step { State.reset with pc := 0x1000 } = .fault (.memoryOutOfRange 0x1000) ∧
    step { State.reset with pc := 0xFFF } = .fault (.memoryOutOfRange 0x1000) ∧
    step { State.reset with pc := 0x10FE } = .fault (.memoryOutOfRange 0x10FE) := ⟨rfl, rfl, rfl⟩
theorem test_tick_after_reset : step State.reset = .fault (.unknownOpcode 0x0000) := rfl
theorem test_tick_illegal : failure 0x5121 State.reset = some (.unknownOpcode 0x5121) := by decide

/-! ## Control transfer (T-C1 to T-C20) -/

theorem test_ret : after 0x00EE { State.reset with sp := 1, stack := State.reset.stack.set 0 0x0206 }
    (fun t => (t.pc, t.sp, t.stack[0])) = some (0x0206, 0, 0x0206) := by decide
theorem test_ret_empty : failure 0x00EE State.reset = some .stackUnderflow := by decide
theorem test_jp : after 0x1FFF State.reset (·.pc) = some 0x0FFF := by decide
theorem test_call_first : after 0x2FFE { State.reset with pc := 0x204 } (fun t => (t.stack[0], t.sp, t.pc)) = some (0x0206, 1, 0x0FFE) := by decide
theorem test_call_last : after 0x2300 { State.reset with sp := 15 } (fun t => (t.stack[15], t.sp, t.pc)) = some (0x0202, 16, 0x0300) ∧
    failure 0x2300 { State.reset with sp := 16 } = some .stackOverflow := by decide
theorem test_jpV0_no_wrap : after 0xBFFF (withV [(0, 0xFF)]) (·.pc) = some 0x10FE := by decide
theorem test_jpV0_not_vx : after 0xB300 (withV [(0, 0x04), (3, 0x99)]) (·.pc) = some 0x0304 := by decide
theorem test_seImm : after 0x3310 (withV [(3, 0x10)]) (·.pc) = some 0x0204 ∧ after 0x3310 (withV [(3, 0x11)]) (·.pc) = some 0x0202 := by decide
theorem test_seImm_past_end : after 0x3000 { State.reset with pc := 0xFFC } (·.pc) = some 0x1000 := by decide
theorem test_sneImm : after 0x4310 (withV [(3, 0x10)]) (·.pc) = some 0x0202 ∧ after 0x4310 (withV []) (·.pc) = some 0x0204 := by decide
theorem test_seReg : after 0x5110 (withV [(1, 0x33)]) (·.pc) = some 0x0204 ∧ after 0x5120 (withV [(1, 7), (2, 8)]) (·.pc) = some 0x0202 := by decide
theorem test_sneReg : after 0x9110 (withV [(1, 0x33)]) (·.pc) = some 0x0202 ∧ after 0x9120 (withV [(1, 7), (2, 8)]) (·.pc) = some 0x0204 := by decide

/-! ## Arithmetic and logic (T-A1 to T-A32) -/

theorem test_ldImm : after 0x6FAA State.reset (·.v[15]) = some 0xAA := by decide
theorem test_addImm : after 0x7001 (withV [(0, 0xFF), (15, 0x01)]) (two 0 15) = some (0x00, 0x01) := by decide
theorem test_addImm_vf : after 0x7F01 (withV [(15, 0xFF)]) (two 14 15) = some (0x00, 0x00) := by decide
theorem test_ldReg : after 0x8120 (withV [(1, 0x11), (2, 0x5A)]) (two 1 2) = some (0x5A, 0x5A) := by decide
theorem test_orReg : after 0x8121 (withV [(1, 0x0F), (2, 0xF0), (15, 0x5A)]) (two 1 15) = some (0xFF, 0x5A) := by decide
theorem test_andReg : after 0x8122 (withV [(1, 0x0F), (2, 0xF0), (15, 0x5A)]) (two 1 15) = some (0x00, 0x5A) := by decide
theorem test_xorReg : after 0x8113 (withV [(1, 0x3C), (15, 0x5A)]) (two 1 15) = some (0x00, 0x5A) := by decide
theorem test_addReg : after 0x8124 (withV [(1, 0xFF), (2, 0xFF)]) (two 1 15) = some (0xFE, 1) := by decide
theorem test_addReg_vf : after 0x8F14 (withV [(15, 0x10), (1, 0x20)]) (two 1 15) = some (0x20, 0x00) ∧
    after 0x81F4 (withV [(15, 0xFF), (1, 0x01)]) (two 1 15) = some (0x00, 1) := by decide
theorem test_sub : after 0x8125 (withV [(1, 0x42), (2, 0x42)]) (two 1 15) = some (0x00, 1) ∧
    after 0x8125 (withV [(2, 0x01)]) (two 1 15) = some (0xFF, 0) := by decide
theorem test_sub_vf : after 0x8F15 (withV [(15, 0x05), (1, 0x03)]) (two 1 15) = some (0x03, 1) := by decide
theorem test_shr : after 0x8126 (withV [(1, 0x04), (2, 0xFF)]) (two 1 15) = some (0x02, 0) ∧
    after 0x8106 (withV [(1, 0x01)]) (two 1 15) = some (0x00, 1) := by decide
theorem test_shr_vf : after 0x8F06 (withV [(15, 0x02)]) (·.v[15]) = some 0x00 ∧ after 0x8F06 (withV [(15, 0x03)]) (·.v[15]) = some 0x01 := by decide
theorem test_subn : after 0x8127 (withV [(1, 0xFF), (2, 0x00)]) (two 1 15) = some (0x01, 0) ∧
    after 0x8127 (withV [(1, 0x42), (2, 0x42)]) (two 1 15) = some (0x00, 1) := by decide
theorem test_shl : after 0x812E (withV [(1, 0x01), (2, 0x80)]) (two 1 15) = some (0x02, 0) ∧
    after 0x810E (withV [(1, 0x80)]) (two 1 15) = some (0x00, 1) := by decide
theorem test_shl_vf : after 0x8F0E (withV [(15, 0x81)]) (·.v[15]) = some 0x01 := by decide
theorem test_rnd : after 0xC3FF State.reset (fun t => (t.v[3], t.draws)) = some (Config.nextByte 0 &&& 0xFF, 1) := rfl
theorem test_rnd_zero_mask : after 0xC000 State.reset (fun t => (t.v[0], t.draws)) = some (Config.nextByte 0 &&& 0x00, 1) := rfl

/-! ## The index register and memory (T-M1 to T-M17) -/

theorem test_ldI : after 0xAFFF State.reset (·.i) = some 0x0FFF := by decide
theorem test_addIVx : after 0xF01E { withV [(0, 0x01), (15, 0x07)] with i := 0xFFFF } (fun t => (t.i, t.v[15])) = some (0x0000, 0x07) ∧
    after 0xF01E { withV [(0, 0x01)] with i := 0x0FFF } (·.i) = some 0x1000 := by decide
theorem test_ldFVx : after 0xF429 (withV [(4, 0x0F)]) (·.i) = some 0x004B ∧ after 0xF429 (withV [(4, 0xFF)]) (·.i) = some 0x04FB := by decide
theorem test_ldBVx : after 0xF033 { withV [(0, 0xFF)] with i := 0x300 } (bytesAt 0x300 3) = some [2, 5, 5] := by decide
theorem test_ldBVx_fault : failure 0xF033 { withV [(0, 0x7B)] with i := 0xFFE } = some (.memoryOutOfRange 0x1000) := by decide
theorem test_ldMemVx_one : after 0xF055 { withV [(0, 0xAB), (1, 0xCD)] with i := 0x300 } (fun t => (bytesAt 0x300 2 t, t.i)) =
    some ([0xAB, 0x00], 0x300) := by decide
theorem test_ldMemVx_fault : failure 0xFF55 { State.reset with i := 0xFF8 } = some (.memoryOutOfRange 0x1000) := by decide
theorem test_ldVxMem : after 0xF265 (poke { State.reset with i := 0x300 } 0x300 [0x0F, 0x0E, 0x0D, 0x0C])
    (fun t => ((t.v[0], t.v[1]), (t.v[2], t.v[3]), t.i)) = some ((0x0F, 0x0E), (0x0D, 0x00), 0x300) := by decide
theorem test_ldVxMem_fault : failure 0xF065 { State.reset with i := 0x1000 } = some (.memoryOutOfRange 0x1000) := by decide

/-! ## The framebuffer (T-D1 to T-D13) -/

theorem test_cls : after 0x00E0 { withV [(15, 0x07)] with fb := clearScreen.toggle 5 2 } (fun t => (t.fb.index 133, t.v[15])) =
    some (false, 0x07) := by decide
theorem test_drw_glyph : after 0xD015 State.reset (fun t => (litBelow 320 t, t.v[15])) =
    some ([0, 1, 2, 3, 64, 67, 128, 131, 192, 195, 256, 257, 258, 259], 0) := by decide +kernel
theorem test_drw_wraps_and_collides :
    after 0xD011 (poke { withV [(0, 0x3F)] with i := 0x300 } 0x300 [0xC0]) (litBelow 128) = some [0, 63] ∧
    after 0xD011 (poke { State.reset with i := 0x300, fb := clearScreen.toggle 0 0 } 0x300 [0xC0])
      (fun t => (litBelow 128 t, t.v[15])) = some ([1], 1) := by decide +kernel

/-! ## Keypad and timers (T-K1 to T-K16) -/

theorem test_skp : after 0xE59E { withV [(5, 0x03)] with key := State.reset.key.set 3 true } (·.pc) = some 0x0204 ∧
    after 0xE59E (withV [(5, 0x03)]) (·.pc) = some 0x0202 := by decide
theorem test_skp_fault : failure 0xE59E (withV [(5, 0x10)]) = some (.keyIndexOutOfRange 0x10) := by decide
theorem test_sknp : after 0xE5A1 (withV [(5, 0x03)]) (·.pc) = some 0x0204 ∧
    after 0xE5A1 { withV [(5, 0x03)] with key := State.reset.key.set 3 true } (·.pc) = some 0x0202 := by decide
theorem test_sknp_fault : failure 0xE5A1 (withV [(5, 0xFF)]) = some (.keyIndexOutOfRange 0xFF) := by decide
theorem test_ldVxK_lowest : after 0xF30A { State.reset with key := (State.reset.key.set 7 true).set 2 true } (fun t => (t.v[3], t.pc)) =
    some (0x02, 0x0202) := by decide
theorem test_ldVxK_waits : after 0xF20A (withV [(2, 0x77)]) (fun t => (t.v[2], t.pc)) = some (0x77, 0x0200) := by decide
theorem test_ldVxDt : after 0xF107 { State.reset with dt := 0x3C } (fun t => (t.v[1], t.dt)) = some (0x3C, 0x3C) := by decide
theorem test_ldDtVx : after 0xF015 (withV [(0, 0x05)]) (fun t => (t.dt, (tickTimers (tickTimers (tickTimers t))).dt)) = some (0x05, 0x02) := by decide
theorem test_ldStVx : after 0xF218 { State.reset with st := 0x09 } (·.st) = some 0x00 := by decide
theorem test_tick_timers : (tickTimers { State.reset with st := 0x01 }).st = 0x00 ∧ (tickTimers { State.reset with st := 0x01 }).dt = 0x00 ∧
    (tickTimers { State.reset with dt := 0xFF }).dt = 0xFE := by decide

/-! ## The parameter FONT (R6, R62), and the host's operations (T-H3, T-H4, T-H7) -/

theorem test_default_font_first_half : bytesAt 0 40 State.reset =
    [0xF0, 0x90, 0x90, 0x90, 0xF0, 0x20, 0x60, 0x20, 0x20, 0x70] ++ [0xF0, 0x10, 0xF0, 0x80, 0xF0, 0xF0, 0x10, 0xF0, 0x10, 0xF0]
    ++ [0x90, 0x90, 0xF0, 0x10, 0x10, 0xF0, 0x80, 0xF0, 0x10, 0xF0] ++ [0xF0, 0x80, 0xF0, 0x90, 0xF0, 0xF0, 0x10, 0x20, 0x40, 0x40] := by decide
theorem test_default_font_second_half : bytesAt 40 40 State.reset =
    [0xF0, 0x90, 0xF0, 0x90, 0xF0, 0xF0, 0x90, 0xF0, 0x10, 0xF0] ++ [0xF0, 0x90, 0xF0, 0x90, 0x90, 0xE0, 0x90, 0xE0, 0x90, 0xE0]
    ++ [0xF0, 0x80, 0x80, 0x80, 0xF0, 0xE0, 0x90, 0x90, 0x90, 0xE0] ++ [0xF0, 0x80, 0xF0, 0x80, 0xF0, 0xF0, 0x80, 0xF0, 0x80, 0x80] := by decide
theorem test_other_font_is_loaded_again :
    bytesAt 0x4E 3 (resetOp (poke (State.constructed (Vector.replicate 80 0xAA)) 0x4E [1, 2, 3])) = [0xAA, 0xAA, 0x00] := by decide

theorem test_load_keeps_the_rest :
    (match load [0xAA, 0xBB] (poke { State.reset with pc := 0x202 } 0x200 [0x11, 0x22, 0x33, 0x44]) with
     | .ok t => some (bytesAt 0x200 4 t, t.pc)
     | .error _ => none) = some ([0xAA, 0xBB, 0x33, 0x44], 0x202) := by decide
theorem test_display : (display { State.reset with fb := clearScreen.toggle 5 2 })[133] = true := by
  rw [display, Vector.getElem_ofFn]; decide

/-! ## Witnesses: for each statement with hypotheses, a concrete state and operands that meet them, at each clause's boundary -/

/-- A core constructed with a font of 80 equal bytes. -/
def withFont (b : Byte) : State := State.constructed (Vector.replicate 80 b)

/-- The reset state with PC at p. -/
def atPc (p : Word) : State := { State.reset with pc := p }

/-- FX55 at 0x200 with X = 1, storing the word 6A 01 over the next instruction. -/
def selfModifying : State := (withV [(0, 0x6A), (1, 0x01)]).setI 0x202 |>.withFetchWord 16 0xF155

/-- FX0A at 0x200, no key pressed. -/
def waiting : State := State.reset.withFetchWord 16 0xF20A

/-- V3 = k, and key 15 pressed. -/
def keyed (k : Byte) : State := { withV [(3, k)] with key := State.reset.key.set 15 true }

/-- SP = n, and stack[n] other than what reset leaves, for n below 16. -/
def stacked (n : Fin 17) (w : Word) : State := { State.reset with sp := n, stack := State.reset.stack.setIfInBounds n.val w }

/-- A session whose run has ended in an error. -/
def ended : Session := ⟨State.reset, some .stackOverflow⟩

/-- DecodedWordIsTheEncodingOfItsInstruction; DecoderFollowsTheOpcodeTable, first clause. -/
theorem witness_decoded_word : decodeWord 0x812E = .ok (.shl 1 2) := rfl
/-- DecoderFollowsTheOpcodeTable, second clause. -/
theorem witness_table_row :
    (Instr.shl 0 0).row ∈ opcodeTable ∧ (0x812E : Word) &&& (Instr.shl 0 0).row.mask = (Instr.shl 0 0).row.pattern := by decide
/-- DecoderFollowsTheOpcodeTable, third clause: next to the word of the second. -/
theorem witness_no_table_row : ∀ row ∈ opcodeTable, (0x812F : Word) &&& row.mask ≠ row.pattern := by decide
/-- IllegalWordsAreThoseOfTheSixSpaces: a word in a space, and one in none. -/
theorem witness_illegal_spaces : (illegalSpaces.any fun space => space 0x812F) = true ∧
    (illegalSpaces.any fun space => space 0x812E) = false := by decide
/-- TickRunsTheDecodedInstruction, PcAdvancesByTwoUnlessRedirected: at the last address a fetch succeeds at. -/
theorem witness_tick_runs : ((atPc 0xFFE).withFetchWord 16 0x6A01).FetchesWord 0x6A01 ∧ decodeWord 0x6A01 = .ok (.ldImm 10 0x01) ∧
    ¬ Redirects (.ldImm 10 0x01) ∧ (after 0x6A01 (atPc 0xFFE) (·.pc)).isSome = true :=
  ⟨⟨by decide, by decide⟩, rfl, id, by decide⟩
/-- FetchOutOfRangeFaults: PC where its three clauses meet. -/
theorem witness_fetch_range : 0x1000 ≤ (atPc 0x1000).pc.toNat ∧ (atPc 0xFFF).pc.toNat = 0x0FFF ∧ (atPc 0xFFE).pc.toNat < 0x0FFF := by decide
/-- IllegalWordFaultsWithTheWord. -/
theorem witness_illegal_word : (State.reset.withFetchWord 16 0x5121).FetchesWord 0x5121 ∧
    ∀ row ∈ opcodeTable, (0x5121 : Word) &&& row.mask ≠ row.pattern := ⟨⟨by decide, by decide⟩, by decide⟩
/-- PlacedWordIsTheNextInstruction: on both sides of the last address a fetch succeeds at, and an address it leaves alone. -/
theorem witness_placed_word : (atPc 0xFFE).MemWf ∧ decodeTableWord 16 0xD01F = some (.drw 0 1 15) ∧
    (atPc 0xFFE).pc.toNat < 0x0FFF ∧ 0x0FFF ≤ (atPc 0xFFF).pc.toNat ∧ 0xFFD ≠ ((atPc 0xFFE).withFetchWord 16 0xD01F).pc.toNat :=
  ⟨by decide, rfl, by decide, by decide, by decide⟩
/-- FailedTickChangesNothingAndRepeats. -/
theorem witness_failed_tick : step State.reset = .fault (.unknownOpcode 0x0000) := rfl
/-- OnlyRndDependsOnTheRandomSource. -/
theorem witness_not_rnd (x : Reg) (nn : Byte) : Instr.addReg 1 2 ≠ .rnd x nn := nofun
/-- ResetLeavesTheSpecifiedState: a core whose font is another, and both ends of the two ranges of memory, by their bytes (R42, R61, R62). -/
theorem witness_other_font : (withFont 0xAA).font ≠ defaultFont ∧ (withFont 0xAA).font = (State.constructed (withFont 0xAA).font).font :=
  ⟨by decide, rfl⟩
theorem witness_reset_memory : bytesAt 0 2 State.reset = [0xF0, 0x90] ∧ bytesAt 0x4F 2 State.reset = [0x80, 0x00] ∧
    bytesAt 0xFFF 1 State.reset = [0x00] := by decide
/-- ResetOperationForgetsTheState: two different states, as many draws in. -/
theorem witness_reset_operation : State.reset.draws = waiting.draws ∧ State.reset.font = waiting.font ∧ State.reset.mem ≠ waiting.mem := by decide
/-- StepKeepsTheInvariant, HostOperationsKeepTheInvariant: the reset state has it, and a step and a run from there complete. -/
theorem witness_invariant : State.reset.Inv ∧ (State.reset.withFetchWord 16 0x2300).Inv ∧
    (after 0x2300 State.reset (·.pc)).isSome = true ∧ (Session.run [.load [0x22, 0x00], .tick, .tickTimers] Session.new).isSome = true :=
  ⟨⟨by decide, by decide, by decide⟩, ⟨by decide, by decide, by decide⟩, by decide, by decide⟩
/-- RetPopsTheStackIntoPc: the top of a stack of one and of sixteen, and the empty stack. -/
theorem witness_ret : (stacked 1 0).sp.val = (0 : Fin 16).val + 1 ∧ (stacked 16 0).sp.val = (15 : Fin 16).val + 1 ∧
    (stacked 0 0).sp = 0 := by decide
/-- CallPushesPcAndJumps, CallThenReturnResumesAfterTheCall: the empty stack, the last free entry, and the full stack. -/
theorem witness_call : (stacked 0 0).sp.val = (0 : Fin 16).val ∧ (stacked 15 0).sp.val = (15 : Fin 16).val ∧
    (0 : Fin 16) ≠ 15 ∧ (stacked 15 0).sp.val < 16 ∧ (stacked 16 0).sp.val = 16 := by decide
/-- CallThenReturnResumesAfterTheCall: a state after the CALL that differs from it outside the stack. -/
theorem witness_call_then_return : after 0x2300 (stacked 15 0) (fun t =>
    decide ((t.setI 7).sp = t.sp ∧ (t.setI 7).stack = t.stack ∧ (t.setI 7).i ≠ t.i)) = some true := by decide
/-- StaleStackEntriesAreNotObservable: stacks that differ at SP and agree below it. -/
theorem witness_stale_stack : (stacked 3 1).stack ≠ (stacked 3 2).stack ∧
    ∀ k : Fin 16, k.val < (stacked 3 1).sp.val → (stacked 3 2).stack[k] = (stacked 3 1).stack[k] := by decide
/-- ImmediateSkipsCompareVxWithNn: equal and not equal. -/
theorem witness_skip_immediate : (withV [(3, 0x10)]).v[(3 : Reg)] = 0x10 ∧ (withV [(3, 0x11)]).v[(3 : Reg)] ≠ 0x10 := by decide
/-- RegisterSkipsCompareVxWithVy: equal and not equal. -/
theorem witness_skip_register : (withV [(3, 1), (4, 1)]).v[(3 : Reg)] = (withV [(3, 1), (4, 1)]).v[(4 : Reg)] ∧
    (withV [(3, 1)]).v[(3 : Reg)] ≠ (withV [(3, 1)]).v[(4 : Reg)] := by decide
/-- The loads, logic, arithmetic, shifts, RND, FX07, LD and DRW: a register that is neither VX nor VF, and an X that is not F. -/
theorem witness_other_register : (1 : Reg) ≠ 15 ∧ (2 : Reg) ≠ 1 ∧ (2 : Reg) ≠ 15 ∧ (0 : Nat) < 8 := by decide
/-- GlyphStandsWhereLdFPoints: the last digit and its last byte, with the default font and with another. -/
theorem witness_glyph : (withV [(4, 15)]).mem = [] ∧ (withV [(4, 15)]).v[(4 : Reg)].toNat = (15 : Fin 16).val ∧
    (withV [(4, 15)]).font = defaultFont ∧ ((withFont 0xAA).setV 4 15).mem = [] ∧
    ((withFont 0xAA).setV 4 15).v[(4 : Reg)].toNat = (15 : Fin 16).val := by decide
/-- BcdStoresThreeDigits: the highest I that fits, with a byte on each side of its range of frames, and the next I. -/
theorem witness_bcd : (State.reset.setI 0xFFD).MemWf ∧ (State.reset.setI 0xFFD).indexed 2 < 0x1000 ∧
    0xFFC < (State.reset.setI 0xFFD).indexed 0 ∧ 0x1000 ≤ (State.reset.setI 0xFFE).indexed 2 := by decide
/-- StoreBlockStoresV0ToVx, LoadBlockLoadsV0ToVx, LoadAfterStoreChangesNothing: X = F at the highest I that fits and at the next. -/
theorem witness_block : (State.reset.setI 0xFF0).MemWf ∧ (State.reset.setI 0xFF0).indexed (15 : Reg).val < 0x1000 ∧
    (15 : Reg) ≤ 15 ∧ 0xFEF < (State.reset.setI 0xFF0).indexed 0 ∧ 0x1000 ≤ (State.reset.setI 0xFF1).indexed (15 : Reg).val := by decide
/-- LoadBlockLoadsV0ToVx: a register above VX. -/
theorem witness_block_above : (State.reset.setI 0xFFF).indexed (0 : Reg).val < 0x1000 ∧ (0 : Reg) < 1 := by decide
/-- StoredCodeIsFetchedNext. -/
theorem witness_stored_code : selfModifying.MemWf ∧ selfModifying.Fetches (.ldMemVx 1) ∧
    (match step selfModifying with | .next _ => true | .fault _ => false | .refused _ => false) = true ∧
    (1 : Reg).val = (0 : Reg).val + 1 ∧ (1 : Reg) ≤ 1 ∧ selfModifying.indexed (0 : Reg).val = selfModifying.pc.toNat + 2 :=
  ⟨by decide, ⟨0xF155, ⟨by decide, by decide⟩, rfl⟩, by decide, by decide, by decide, by decide⟩
/-- OnlyBcdStoreLoadAndResetWriteMemory: a tick, a load and a reset that change memory. -/
theorem witness_memory_written : (applyOp .tick selfModifying).1.mem ≠ selfModifying.mem ∧
    (applyOp (.load [1]) State.reset).1.mem ≠ State.reset.mem ∧ (applyOp .reset selfModifying).1.mem ≠ selfModifying.mem := by decide
/-- DrwInvertsTheSpriteCellsAndReportsCollision: N = 0 anywhere, the highest I that fits for N = 15, the next, and the last cell. -/
theorem witness_drw : ((0 : Fin 16) = 0 ∨ (State.reset.setI 0xFFFF).indexed (0 : Fin 16).val ≤ 0x1000) ∧
    (State.reset.setI 0xFF1).indexed (15 : Fin 16).val ≤ 0x1000 ∧ (15 : Fin 16) ≠ 0 ∧
    0x1000 < (State.reset.setI 0xFF2).indexed (15 : Fin 16).val ∧ 63 < 64 ∧ 31 < 32 := by decide
/-- DrawingTwiceRestoresTheScreen: a draw that completes, and a second from a state like the one after it, VF apart. -/
theorem witness_drawing_twice : after 0xD015 State.reset (fun t =>
    let s' := t.setV 15 9
    decide (s'.fb = t.fb ∧ s'.font = t.font ∧ s'.mem = t.mem ∧ s'.i = t.i ∧ s'.v[0] = State.reset.v[0] ∧ s'.v[1] = State.reset.v[1])) = some true := by decide
/-- KeySkipsReadTheKeypad: the last key, pressed and not, and the first byte that is no key. -/
theorem witness_key_skips : (keyed 15).v[(3 : Reg)].toNat = (15 : Reg).val ∧ (keyed 15).key[(15 : Reg)] = true ∧
    (keyed 0).v[(3 : Reg)].toNat = (0 : Reg).val ∧ (keyed 0).key[(0 : Reg)] = false ∧ 16 ≤ (keyed 16).v[(3 : Reg)].toNat := by decide
/-- KeyWaitRetriesOrTakesTheLowestKey: no key, and only the last key. -/
theorem witness_key_wait : (∀ k : Reg, State.reset.key[k] = false) ∧ (keyed 0).key[(15 : Reg)] = true ∧
    ∀ j : Reg, j < 15 → (keyed 0).key[j] = false := by decide
/-- AwaitingKeyTickChangesNothing. -/
theorem witness_awaiting : waiting.Awaiting := ⟨⟨2, 0xF20A, ⟨by decide, by decide⟩, rfl⟩, by decide⟩
/-- OnlyNamedInstructionsWriteRegisters: instructions that change a result register and VF. -/
theorem witness_register_written : after 0x8124 (withV [(1, 0xFF), (2, 2)]) (fun t => decide (t.v[1] ≠ 0xFF ∧ t.v[15] ≠ 0)) = some true := by decide
/-- EachElementHasOnlyItsNamedWriters: an instruction that changes each element. -/
theorem witness_elements_written :
    (after 0xA123 State.reset fun t => decide (t.i ≠ State.reset.i)) = some true ∧
    (after 0x2300 State.reset fun t => decide (t.sp ≠ State.reset.sp ∧ t.stack ≠ State.reset.stack)) = some true ∧
    (after 0xF015 (withV [(0, 1)]) fun t => decide (t.dt ≠ State.reset.dt)) = some true ∧
    (after 0xF018 (withV [(0, 1)]) fun t => decide (t.st ≠ State.reset.st)) = some true ∧
    (after 0xD015 State.reset fun t => decide (t.fb ≠ State.reset.fb)) = some true ∧
    (after 0xC0FF State.reset fun t => decide (t.draws ≠ State.reset.draws)) = some true := by decide
/-- LoadCopiesTheRom: the longest ROM, and an address next to each end of its range. -/
theorem witness_load : State.reset.MemWf ∧ (List.replicate 3584 (0xAA : Byte)).length ≤ 3584 ∧ 0x1FF < 0x200 ∧
    0x200 + (List.replicate 3584 (0xAA : Byte)).length ≤ 0x1000 :=
  ⟨by decide, by rw [List.length_replicate], by decide, by rw [List.length_replicate]⟩
/-- ReloadAfterResetIsASingleLoad: a load that succeeds where memory is not that of reset, a byte of its ROM and the last
byte of memory above it. -/
theorem witness_reload : selfModifying.mem ≠ State.reset.mem ∧
    (match load [0xAA] selfModifying with | .ok _ => true | .error _ => false) = true ∧
    0 < [(0xAA : Byte)].length ∧ 0x200 + [(0xAA : Byte)].length ≤ 0xFFF ∧ 0xFFF < 0x1000 := by decide
/-- LongRomIsRejected: the shortest ROM that is too long. -/
theorem witness_long_rom : 3584 < (List.replicate 3585 (0xAA : Byte)).length := by rw [List.length_replicate]; decide
/-- TickTimersCountsBothDown: a timer at 1 and one at 0. -/
theorem witness_timers : 0 < ({ State.reset with dt := 1 } : State).dt.toNat ∧ ({ State.reset with dt := 1 } : State).st.toNat = 0 ∧
    ({ State.reset with st := 1 } : State).dt.toNat = 0 ∧ 0 < ({ State.reset with st := 1 } : State).st.toNat := by decide
/-- KeypressSetsItsKeyOnly, ViewsReadAndChangeNothing: another key, and the index of the last cell. -/
theorem witness_key_and_cell : (14 : Reg) ≠ 15 ∧ 63 < 64 ∧ 31 < 32 ∧ (2047 : Fin 2048).val = 63 + 64 * 31 := by decide
/-- RunEndsAtItsFirstFailedTick: a tick that fails in a run without an error, and an operation that is admitted after one. -/
theorem witness_run_ends : Session.new.record = none ∧ step Session.new.machine = .fault (.unknownOpcode 0x0000) ∧
    ended.record = some .stackOverflow ∧ HostOp.tickTimers ≠ .reset ∧ (Session.apply .tickTimers ended).isSome = true :=
  ⟨rfl, rfl, rfl, nofun, by decide⟩

end Sys2Proof.Tests
end

section
/-! The state: what an instruction that completes can do, which element each instruction writes, the invariant of the
reachable states, and the state after reset (spec 10_state.md). -/

namespace Sys2Proof.Machine

/-! ## What an instruction that completes can do -/

/-- What instruction `i`, when it completes, can make of the state `s`: one constructor per set of elements written. The
argument of `pc` says where a redirected PC lies, given that the fetch has just advanced it. -/
inductive Effect (s : State) : Instr → State → Prop where
  | regs {i v} (h : ∀ r : Reg, v[r] ≠ s.v[r] → WritesV i r) : Effect s i { s with v := v }
  | pc {i w} (hi : Redirects i) (h : 2 ≤ s.pc.toNat → s.pc.toNat ≤ maxReturn → w.toNat ≤ maxPc) :
      Effect s i { s with pc := w }
  | ret (k : Fin 16) : Effect s .ret { s with sp := k.castSucc, pc := s.stack[k] }
  | call (nnn) (k : Fin 16) :
      Effect s (.call nnn) { s with stack := s.stack.set k s.pc, sp := k.succ, pc := zextAddr nnn }
  | cls : Effect s .cls { s with fb := clearScreen }
  | drw (x y n fb flag) : Effect s (.drw x y n) { s with fb := fb, v := s.v.set 15 flag }
  | rnd (x nn b) : Effect s (.rnd x nn) { s with v := s.v.set x b, draws := s.draws + 1 }
  | ldI (nnn) : Effect s (.ldI nnn) { s with i := zextAddr nnn }
  | addIVx (x) : Effect s (.addIVx x) { s with i := s.i + zextByte s.v[x] }
  | ldFVx (x) : Effect s (.ldFVx x) { s with i := 5 * zextByte s.v[x] }
  | ldDtVx (x) : Effect s (.ldDtVx x) { s with dt := s.v[x] }
  | ldStVx (x) : Effect s (.ldStVx x) { s with st := s.v[x] }
  | ldBVx (x m) (h : s.MemWf → Memory.wf s.font m) : Effect s (.ldBVx x) { s with mem := m }
  | ldMemVx (x m) (h : s.MemWf → Memory.wf s.font m) : Effect s (.ldMemVx x) { s with mem := m }

section
variable {i : Instr} {s t : State}

/-- A result in VX alone. -/
theorem Effect.setV {x : Reg} {b : Byte} (hx : WritesV i x) : Effect s i (s.setV x b) := by
  refine .regs fun r hr => ?_
  rw [Regs.get_set] at hr
  by_cases hrx : r = x
  · exact hrx ▸ hx
  · exact absurd (if_neg hrx) hr

/-- A result in VX and a flag in VF. -/
theorem Effect.setVThenFlag {x : Reg} {b flag : Byte} (hx : WritesV i x) (hf : WritesV i 15) :
    Effect s i (s.setVThenFlag x b flag) := by
  refine .regs (v := (s.setVThenFlag x b flag).v) fun r hr => ?_
  rw [Regs.get_setVThenFlag] at hr
  by_cases hr15 : r = 15
  · exact hr15 ▸ hf
  by_cases hrx : r = x
  · exact hrx ▸ hx
  · exact absurd ((if_neg hr15).trans (if_neg hrx)) hr

/-- A block loaded into V0 to VX (R195). -/
theorem Effect.setBlock {x : Reg} {bs : List Byte} (hbs : bs.length = x.val + 1) :
    Effect s (.ldVxMem x) { s with v := Machine.setBlock s.v 0 bs } := by
  refine .regs fun r hr => ?_
  rw [setBlock_get] at hr
  by_contra hrx
  have hlt : x.val < r.val := not_le.1 hrx
  exact hr (dif_neg (by omega))

/-- A taken or untaken skip leaves PC at most 0x1002 (R148). -/
theorem Effect.skipIf {c : Bool} (hi : Redirects i) : Effect s i (s.skipIf c) := by
  refine .pc hi fun _ hle => ?_
  simp only [maxReturn, maxPc] at hle ⊢
  cases c
  · simp; omega
  · simp [BitVec.toNat_add]; omega

theorem zextAddr_le_maxPc (nnn : Addr) : (zextAddr nnn).toNat ≤ maxPc := by
  rw [zextAddr_toNat, maxPc]; omega

/-- BNNN reaches at most 0x0FFF + 0xFF (R30, R143). -/
theorem zextAddr_add_zextByte_le_maxPc (nnn : Addr) (b : Byte) : (zextAddr nnn + zextByte b).toNat ≤ maxPc := by
  rw [BitVec.toNat_add, zextAddr_toNat, zextByte_toNat, maxPc]; omega

/-- FX0A moves PC back to itself (R232). -/
theorem sub_two_le_maxPc {w : Word} (h2 : 2 ≤ w.toNat) (hle : w.toNat ≤ maxReturn) : (w - 2).toNat ≤ maxPc := by
  rw [maxReturn] at hle
  rw [BitVec.toNat_sub_of_le (show (2 : Word) ≤ w from h2), maxPc]
  simp; omega

/-- Every instruction that completes has one of the effects. -/
theorem effect_of_exec (h : exec i s = .next t) : Effect s i t := by
  cases i with
  | ldImm | addImm | ldReg | orReg | andReg | xorReg | ldVxDt => cases h; exact .setV rfl
  | addReg | sub | shr | subn | shl => cases h; exact .setVThenFlag (.inl rfl) (.inr rfl)
  | seImm | sneImm | seReg | sneReg => cases h; exact .skipIf trivial
  | jp nnn => cases h; exact .pc trivial fun _ _ => zextAddr_le_maxPc nnn
  | jpV0 nnn => cases h; exact .pc trivial fun _ _ => zextAddr_add_zextByte_le_maxPc nnn _
  | cls => cases h; exact .cls
  | ldI nnn => cases h; exact .ldI nnn
  | addIVx x => cases h; exact .addIVx x
  | ldFVx x => cases h; exact .ldFVx x
  | ldDtVx x => cases h; exact .ldDtVx x
  | ldStVx x => cases h; exact .ldStVx x
  | rnd x nn => cases h; exact .rnd x nn _
  | ret =>
    rcases exec_ret_cases s with ⟨k, -, he⟩ | ⟨-, he⟩ <;> cases he.symm.trans h
    exact .ret k
  | call nnn =>
    rcases exec_call_cases nnn s with ⟨k, -, he⟩ | ⟨-, he⟩ <;> cases he.symm.trans h
    exact .call nnn k
  | skp x =>
    rcases exec_skp_cases x s with ⟨k, -, he⟩ | ⟨-, he⟩ <;> cases he.symm.trans h
    exact .skipIf trivial
  | sknp x =>
    rcases exec_sknp_cases x s with ⟨k, -, he⟩ | ⟨-, he⟩ <;> cases he.symm.trans h
    exact .skipIf trivial
  | ldVxK x =>
    rcases exec_ldVxK_cases x s with ⟨-, he⟩ | ⟨k, -, he⟩ <;> cases he.symm.trans h
    · exact .pc trivial sub_two_le_maxPc
    · exact .setV rfl
  | drw x y n =>
    rcases exec_drw_cases x y n s with ⟨-, he⟩ | ⟨-, he⟩ <;> cases he.symm.trans h
    exact .drw x y n _ _
  | ldBVx x =>
    rcases exec_ldBVx_cases x s with ⟨-, m, he, hm⟩ | ⟨-, he⟩ <;> cases he.symm.trans h
    exact .ldBVx x m fun hs => (hm hs).1
  | ldMemVx x =>
    rcases exec_ldMemVx_cases x s with ⟨-, m, he, hm⟩ | ⟨-, he⟩ <;> cases he.symm.trans h
    exact .ldMemVx x m fun hs => (hm hs).1
  | ldVxMem x =>
    rcases exec_ldVxMem_cases x s with ⟨-, he⟩ | ⟨-, he⟩ <;> cases he.symm.trans h
    exact .setBlock (blockAtI_length s _)

/-! ## The invariant -/

/-- A constructed core satisfies the invariant, whatever its font (R42). -/
theorem State.constructed_inv (font : Config.Font) : (State.constructed font).Inv where
  mem_wf := State.constructed_memWf font
  stack_le k := by simp [State.constructed]
  pc_le := by simp only [State.constructed]; decide

/-- Every effect keeps the invariant, where the fetch has advanced PC to between 2 and 0x1000. -/
theorem Effect.inv (h : Effect s i t) (hs : s.Inv) (h2 : 2 ≤ s.pc.toNat) (hle : s.pc.toNat ≤ maxReturn) : t.Inv := by
  obtain ⟨hmem, hstack, hpc⟩ := hs
  cases h with
  | pc _ h => exact ⟨hmem, hstack, h h2 hle⟩
  | ret k => exact ⟨hmem, hstack, (hstack k).trans (by decide)⟩
  | call nnn k =>
    refine ⟨hmem, fun j => ?_, zextAddr_le_maxPc nnn⟩
    simp only [Fin.getElem_fin, Vector.getElem_set]
    split
    · exact hle
    · exact hstack j
  | ldBVx x m h | ldMemVx x m h => exact ⟨h hmem, hstack, hpc⟩
  | _ => exact ⟨hmem, hstack, hpc⟩

/-- The advance of PC from an address a fetch succeeds at: no wrap, and at most 0x1000 (R121, R125). -/
theorem advancePc_pc_toNat (h : s.pc.toNat + 1 < Config.memSize) : (advancePc s).pc.toNat = s.pc.toNat + 2 := by
  rw [memSize_eq] at h
  rw [advancePc_pc, BitVec.toNat_add]
  simp; omega

theorem advancePc_inv (hs : s.Inv) (h : s.pc.toNat + 1 < Config.memSize) : (advancePc s).Inv where
  mem_wf := hs.mem_wf
  stack_le := hs.stack_le
  pc_le := by rw [advancePc_pc_toNat h, maxPc]; rw [memSize_eq] at h; omega

end

/-- Settles O17: a tick that completes runs an effect from the state after its fetch, where PC is at most 0x1000. -/
theorem stepKeepsTheInvariant : Obligations.StepKeepsTheInvariant := by
  intro s t hs ht
  rcases step_cases s with ⟨op, i, ⟨hr, -⟩, -, he⟩ | ⟨op, e, -, -, he⟩ | ⟨-, he⟩ <;> rw [he] at ht
  · have hpc := advancePc_pc_toNat hr
    rw [memSize_eq] at hr
    exact (effect_of_exec ht).inv (advancePc_inv hs hr) (by omega) (by rw [maxReturn]; omega)
  · cases ht
  · cases ht

/-- Settles O16: a constructed core satisfies the invariant, and the reset state is one. -/
theorem resetSatisfiesTheInvariant : Obligations.ResetSatisfiesTheInvariant :=
  ⟨State.constructed_inv defaultFont, State.constructed_inv⟩

/-! ## The named writers -/

/-- Settles O47: by the effects; only results, flags and block loads write registers. -/
theorem onlyNamedInstructionsWriteRegisters : Obligations.OnlyNamedInstructionsWriteRegisters := by
  intro i s t r h hr
  cases effect_of_exec h with
  | regs hv => exact hv r hr
  | drw x y n fb flag =>
    by_contra hne
    exact hr ((Regs.get_set s.v 15 r flag).trans (if_neg hne))
  | rnd x nn b =>
    by_contra hne
    exact hr ((Regs.get_set s.v x r b).trans (if_neg hne))
  | _ => exact absurd rfl hr

/-- Settles O48: each effect keeps every element but those its constructor writes. -/
theorem eachElementHasOnlyItsNamedWriters : Obligations.EachElementHasOnlyItsNamedWriters := by
  intro i s t h
  cases effect_of_exec h <;> simp

/-! ## Stale stack entries -/

/-- The outcome with its next state, where there is one, changed by `g`. -/
def mapNext (g : State → State) : Host.Outcome State Fault Refusal → Host.Outcome State Fault Refusal
  | .next t => .next (g t)
  | .fault e => .fault e
  | .refused r => .refused r

/-- The state with another array of stack entries. -/
def State.withStack (s : State) (stack' : Vector Word 16) : State := { s with stack := stack' }

section
variable (s : State) (stack' : Vector Word 16)

@[simp] theorem State.withStack_sp : (s.withStack stack').sp = s.sp := rfl
@[simp] theorem State.withStack_stack : (s.withStack stack').stack = stack' := rfl
@[simp] theorem State.withStack_v : (s.withStack stack').v = s.v := rfl
@[simp] theorem State.withStack_key : (s.withStack stack').key = s.key := rfl
@[simp] theorem State.withStack_reg (x : Reg) : (s.withStack stack').reg x = s.reg x := rfl
@[simp] theorem State.withStack_readAtI (n : Nat) : (s.withStack stack').readAtI n = s.readAtI n := rfl

@[simp] theorem State.withStack_writeAtI (bs : List Byte) :
    (s.withStack stack').writeAtI bs = (s.writeAtI bs).map (·.withStack stack') := by
  simp only [State.writeAtI, State.writeBytes, State.withStack, State.indexed_zero]
  cases writeBlock s.font s.mem s.i.toNat bs <;> rfl

/-- No instruction but RET and CALL reads or writes the stack. -/
theorem exec_withStack {i : Instr} (hret : i ≠ .ret) (hcall : ∀ nnn, i ≠ .call nnn) :
    exec i (s.withStack stack') = mapNext (·.withStack stack') (exec i s) := by
  cases i with
  | ret => exact absurd rfl hret
  | call nnn => exact absurd rfl (hcall nnn)
  | skp x => simp only [exec, execSkp, State.withStack_reg]; cases keyIndex (s.reg x) <;> rfl
  | sknp x => simp only [exec, execSknp, State.withStack_reg]; cases keyIndex (s.reg x) <;> rfl
  | ldVxK x => simp only [exec, execLdVxK, State.withStack_key]; cases lowestKey s.key <;> rfl
  | drw x y n => simp only [exec, execDrw, State.withStack_readAtI]; cases s.readAtI n.val <;> rfl
  | ldVxMem x => simp only [exec, execLdVxMem, State.withStack_readAtI]; cases s.readAtI (x.val + 1) <;> rfl
  | ldBVx x =>
    simp only [exec, execLdBVx, State.withStack_reg, State.withStack_writeAtI]
    cases s.writeAtI (decimalDigits (s.reg x)) <;> rfl
  | ldMemVx x =>
    simp only [exec, execLdMemVx, State.withStack_v, State.withStack_writeAtI]
    cases s.writeAtI (takeBlock s.v x) <;> rfl
  | _ => rfl

end

/-- RET with SP = k + 1 (R140). -/
theorem exec_ret_of_sp {s : State} {k : Fin 16} (hk : s.sp.val = k.val + 1) :
    exec .ret s = .next { s with sp := k.castSucc, pc := s.stack[k] } := by
  rcases exec_ret_cases s with ⟨j, hj, he⟩ | ⟨h0, -⟩
  · obtain rfl : j = k := Fin.ext (by omega)
    exact he
  · omega

/-- RET on an empty stack (R140, R274). -/
theorem exec_ret_of_empty {s : State} (h0 : s.sp.val = 0) : exec .ret s = .fault .stackUnderflow := by
  rcases exec_ret_cases s with ⟨k, hk, -⟩ | ⟨-, he⟩
  · omega
  · exact he

/-- CALL with SP = k (R142). -/
theorem exec_call_of_sp {nnn : Addr} {s : State} {k : Fin 16} (hk : s.sp.val = k.val) :
    exec (.call nnn) s = .next { s with stack := s.stack.set k s.pc, sp := k.succ, pc := zextAddr nnn } := by
  rcases exec_call_cases nnn s with ⟨j, hj, he⟩ | ⟨h16, -⟩
  · obtain rfl : j = k := Fin.ext (by omega)
    exact he
  · omega

/-- CALL on a full stack (R142, R273). -/
theorem exec_call_of_full {nnn : Addr} {s : State} (h16 : s.sp.val = 16) : exec (.call nnn) s = .fault .stackOverflow := by
  rcases exec_call_cases nnn s with ⟨k, hk, -⟩ | ⟨-, he⟩
  · omega
  · exact he

/-- Two stacks agree on the entries below `sp`, the live ones (R31). -/
def LiveEntriesAgree (sp : Fin 17) (a b : Vector Word 16) : Prop := ∀ k : Fin 16, k.val < sp.val → a[k] = b[k]

/-- The outcome `o'` is `o`, but for stack entries at SP and above. -/
def SameButStale (o o' : Host.Outcome State Fault Refusal) : Prop :=
  match o with
  | .next t => ∃ stack', o' = .next (t.withStack stack') ∧ LiveEntriesAgree t.sp stack' t.stack
  | .fault e => o' = .fault e
  | .refused r => o' = .refused r

section
variable {s : State} {stack' : Vector Word 16}

/-- RET reads the entry below SP, which is live. -/
theorem exec_ret_sameButStale (h : LiveEntriesAgree s.sp stack' s.stack) :
    SameButStale (exec .ret s) (exec .ret (s.withStack stack')) := by
  rcases exec_ret_cases s with ⟨k, hk, he⟩ | ⟨h0, he⟩ <;> rw [he]
  · refine ⟨stack', ?_, fun j hj => h j ?_⟩
    · rw [exec_ret_of_sp (s := s.withStack stack') hk, State.withStack_stack, h k (by omega)]; rfl
    · have hj' : j.val < k.val := hj
      omega
  · exact exec_ret_of_empty h0

/-- CALL writes the entry at SP, which becomes live. -/
theorem exec_call_sameButStale (nnn : Addr) (h : LiveEntriesAgree s.sp stack' s.stack) :
    SameButStale (exec (.call nnn) s) (exec (.call nnn) (s.withStack stack')) := by
  rcases exec_call_cases nnn s with ⟨k, hk, he⟩ | ⟨h16, he⟩ <;> rw [he]
  · refine ⟨stack'.set k s.pc, exec_call_of_sp (s := s.withStack stack') hk, fun j hj => ?_⟩
    simp only [Fin.getElem_fin, Vector.getElem_set]
    split
    · rfl
    · next hne =>
      have hj' : j.val < k.val + 1 := hj
      exact h j (by omega)
  · exact exec_call_of_full h16

/-- Every other instruction leaves SP and both stacks as they are. -/
theorem exec_sameButStale {i : Instr} (hret : i ≠ .ret) (hcall : ∀ nnn, i ≠ .call nnn)
    (h : LiveEntriesAgree s.sp stack' s.stack) : SameButStale (exec i s) (exec i (s.withStack stack')) := by
  rw [exec_withStack s stack' hret hcall]
  cases he : exec i s with
  | next t =>
    obtain ⟨-, hsp, hstack, -⟩ := eachElementHasOnlyItsNamedWriters i s t he
    have hsp' : t.sp = s.sp := by_contra fun hne => (hsp hne).elim hret fun ⟨nnn, hi⟩ => hcall nnn hi
    have hstack' : t.stack = s.stack := by_contra fun hne => (hstack hne).elim hcall
    exact ⟨stack', rfl, hsp' ▸ hstack' ▸ h⟩
  | fault e => rfl
  | refused r => rfl

end

/-- Settles O25: RET reads a live entry, CALL writes the one that becomes live, and no other instruction uses the stack. -/
theorem staleStackEntriesAreNotObservable : Obligations.StaleStackEntriesAreNotObservable := by
  intro i s stack' h
  have hsame : SameButStale (exec i s) (exec i (s.withStack stack')) := by
    by_cases hret : i = .ret
    · exact hret ▸ exec_ret_sameButStale h
    by_cases hcall : ∃ nnn, i = .call nnn
    · obtain ⟨nnn, rfl⟩ := hcall
      exact exec_call_sameButStale nnn h
    · exact exec_sameButStale hret (not_exists.1 hcall) h
  cases he : exec i s <;> rw [he] at hsame <;> exact hsame

/-! ## Reset -/

/-- Below the font's end a constructed core's memory reads as the font (R42, R61). -/
theorem State.constructed_readByte_font (font : Config.Font) {a : Nat} (h : a < 0x50) :
    (State.constructed font).readByte a = .ok font[a] := by
  rw [State.readByte_ok (by rw [memSize_eq]; omega)]
  exact congrArg Except.ok (resetByte_font h)

/-- From the font's end on it reads as zeros (R42, R61). -/
theorem State.constructed_readByte_zero (font : Config.Font) {a : Nat} (h : 0x50 ≤ a) (hlt : a < 0x1000) :
    (State.constructed font).readByte a = .ok 0 := by
  rw [State.readByte_ok (by rw [memSize_eq]; omega)]
  exact congrArg Except.ok (resetByte_zero h)

/-- Settles O14: the constructed state, element by element. -/
theorem resetLeavesTheSpecifiedState : Obligations.ResetLeavesTheSpecifiedState := by
  refine ⟨rfl, fun font => ⟨rfl, ?reset, fun _ => State.constructed_readByte_font font,
    fun _ => State.constructed_readByte_zero font, ?regs, rfl, rfl, rfl, ?stack, rfl, rfl, ?keys, ?cells⟩⟩
  case reset => rintro s₀ rfl; rfl
  case regs => intro r; simp [State.constructed]
  case stack => intro k; simp [State.constructed]
  case keys => intro k; simp [State.constructed]
  case cells => intro k _; exact clearScreen_cell _ _

end Sys2Proof.Machine
end

section
/-! Memory: which operations write it, the glyphs of the font, code that is stored and then fetched, and the word
`withFetchWord` places (spec 20_memory.md). -/

namespace Sys2Proof.Machine

/-! ## Which operations write memory (R73) -/

section
variable {i : Instr} {s t : State}

/-- An instruction that changes memory is FX33 or FX55: every other effect keeps it. -/
theorem Effect.eq_ldBVx_or_ldMemVx_of_mem_ne (h : Effect s i t) (hm : t.mem ≠ s.mem) :
    ∃ x, i = .ldBVx x ∨ i = .ldMemVx x := by
  cases h with
  | ldBVx x => exact ⟨x, .inl rfl⟩
  | ldMemVx x => exact ⟨x, .inr rfl⟩
  | _ => exact absurd rfl hm

/-- A tick that changes memory is one of FX33 or FX55. -/
theorem fetches_ldBVx_or_ldMemVx_of_mem_ne (h : step s = .next t) (hm : t.mem ≠ s.mem) :
    ∃ x, s.Fetches (.ldBVx x) ∨ s.Fetches (.ldMemVx x) := by
  rcases step_cases s with ⟨op, i, hf, hd, he⟩ | ⟨op, e, -, -, he⟩ | ⟨-, he⟩ <;> rw [he] at h
  · obtain ⟨x, rfl | rfl⟩ := (effect_of_exec h).eq_ldBVx_or_ldMemVx_of_mem_ne hm
    · exact ⟨x, .inl ⟨op, hf, hd⟩⟩
    · exact ⟨x, .inr ⟨op, hf, hd⟩⟩
  · cases h
  · cases h

end

/-- Settles O39: of the operations other than reset and load only a tick can change memory, and a tick that does runs
FX33 or FX55. -/
theorem onlyBcdStoreLoadAndResetWriteMemory : Obligations.OnlyBcdStoreLoadAndResetWriteMemory := by
  intro op s hm
  cases op with
  | reset => exact .inl rfl
  | load rom => exact .inr (.inl ⟨rom, rfl⟩)
  | tick =>
    refine .inr (.inr ⟨rfl, ?_⟩)
    rw [applyOp] at hm
    cases h : step s with
    | next t => rw [h] at hm; exact fetches_ldBVx_or_ldMemVx_of_mem_ne h hm
    | fault e => rw [h] at hm; exact absurd rfl hm
    | refused r => rw [h] at hm; exact absurd rfl hm
  | tickTimers | keypress | display | sound => exact absurd rfl hm

/-! ## The glyphs of the font (R61 to R63) -/

/-- Five times a byte does not wrap in 16 bits (R192). -/
theorem five_mul_zextByte_toNat (b : Byte) : (5 * zextByte b).toNat = 5 * b.toNat := by
  have hb := b.isLt
  rw [BitVec.toNat_mul, zextByte_toNat, show (5 : Word).toNat = 5 from rfl, Nat.mod_eq_of_lt (by omega)]

/-- Memory with its reset contents reads as that of a core constructed with the same font. -/
theorem State.readByte_of_mem_nil {s : State} (h : s.mem = []) (a : Nat) :
    s.readByte a = (State.constructed s.font).readByte a := by
  rw [State.readByte, h]; rfl

/-- Settles O33: FX29 points I at 5d, and the bytes from there on are those of the font. -/
theorem glyphStandsWhereLdFPoints : Obligations.GlyphStandsWhereLdFPoints := by
  intro x s d hmem hd
  refine ⟨s.setI (5 * zextByte s.v[x]), rfl, fun k => ?_⟩
  have hread : (s.setI (5 * zextByte s.v[x])).readByte (5 * d.val + k.val) =
      .ok (s.font[5 * d.val + k.val]'(by simp only [Config.fontSize]; omega)) :=
    (State.readByte_of_mem_nil hmem _).trans (State.constructed_readByte_font s.font (by omega))
  rw [State.indexed, State.setI_i, five_mul_zextByte_toNat, hd]
  refine ⟨hread, fun hfont => hread.trans ?_⟩
  simp only [hfont, defaultFont_glyph]

/-! ## Code that is stored and then fetched (R76, R308) -/

/-- Inside a block that was written memory reads as the block's bytes. -/
theorem blockAfter_getElem {f : Config.Font} (m : Memory) (a : Nat) {bs : List Byte} {k : Nat} (h : k < bs.length) :
    blockAfter f m a bs (a + k) = bs[k] := by
  rw [blockAfter, dif_pos (by omega)]
  simp only [Nat.add_sub_cancel_left]

/-- An FX55 that completes changes memory alone, and register k of its block then stands at I + k (R194). -/
theorem exec_ldMemVx_stores {x : Reg} {s t : State} (hs : s.MemWf) (h : exec (.ldMemVx x) s = .next t) :
    t = { s with mem := t.mem } ∧
    ∀ k : Reg, k ≤ x → s.indexed k.val < 0x1000 ∧ Memory.get s.font t.mem (s.indexed k.val) = s.v[k] := by
  rcases exec_ldMemVx_cases x s with ⟨hr, m, he, hm⟩ | ⟨-, he⟩ <;> cases he.symm.trans h
  refine ⟨rfl, fun k (hk : k.val ≤ x.val) => ⟨?_, ?_⟩⟩
  · rw [State.indexed] at hr ⊢; omega
  · have hlen : k.val < (takeBlock s.v x).length := by rw [takeBlock_length]; omega
    calc Memory.get s.font m (s.indexed k.val)
      _ = blockAfter s.font s.mem (s.indexed 0) (takeBlock s.v x) (s.indexed 0 + k.val) := (hm hs).2 _
      _ = (takeBlock s.v x)[k.val] := blockAfter_getElem _ _ hlen
      _ = s.v[k] := takeBlock_getElem s.v x k hlen

/-- Settles O38: the two bytes at the new PC are registers of the block just stored. -/
theorem storedCodeIsFetchedNext : Obligations.StoredCodeIsFetchedNext := by
  rintro x k l s t hs ⟨op, hf, hd⟩ ht hl hlx hk
  rw [step_of_fetches hf hd] at ht
  obtain ⟨hframe, hstored⟩ := exec_ldMemVx_stores (s := advancePc s) hs ht
  obtain ⟨-, hhi⟩ := hstored k (by rw [Fin.le_def] at hlx ⊢; omega)
  obtain ⟨hlt, hlo⟩ := hstored l hlx
  have hpc : t.pc.toNat = s.pc.toNat + 2 := by rw [hframe]; exact advancePc_pc_toNat hf.1
  have hfont : t.font = s.font := by rw [hframe]; rfl
  have hik : (advancePc s).indexed k.val = t.pc.toNat := hk.trans hpc.symm
  have hil : (advancePc s).indexed l.val = t.pc.toNat + 1 := by
    rw [← hik, State.indexed, State.indexed, hl]; omega
  refine ⟨hil ▸ hlt, ?_⟩
  rw [hfont, ← hil, ← hik]
  exact (congrArg₂ wordOfBytes hhi hlo).symm

/-! ## The word `withFetchWord` places (R65, R121; log entry 4) -/

/-- What a table number decodes to is what its word decodes to. -/
theorem decodeWord_of_decodeTableWord {nbits w : Nat} {i : Instr} (h : decodeTableWord nbits w = some i) :
    decodeWord (tableWord nbits w) = .ok i := by
  rw [decodeTableWord_eq] at h
  cases hd : decodeWord (tableWord nbits w) <;> rw [hd] at h <;> cases h
  rfl

section
variable {s : State}

/-- Where a fetch at PC can succeed, the word is placed there. -/
theorem fetchPoint_of_lt (h : s.pc.toNat < 0x0FFF) : fetchPoint s = s :=
  if_pos (by rw [memSize_eq]; omega)

/-- Where it cannot, the word is placed at the entry point. -/
theorem fetchPoint_of_le (h : 0x0FFF ≤ s.pc.toNat) : fetchPoint s = s.setPc 0x200 :=
  if_neg (by rw [memSize_eq]; omega)

/-- Only PC can differ at the fetch point. -/
theorem fetchPoint_eq_setPc (s : State) : fetchPoint s = s.setPc (fetchPoint s).pc := by
  rcases Nat.lt_or_ge s.pc.toNat 0x0FFF with h | h
  · rw [fetchPoint_of_lt h]; rfl
  · rw [fetchPoint_of_le h]; rfl

@[simp] theorem State.withFetchWord_pc (s : State) (nbits w : Nat) :
    (s.withFetchWord nbits w).pc = (fetchPoint s).pc := rfl

/-- A fetch at the fetch point stays in range. -/
theorem fetchPoint_inRange (s : State) : (fetchPoint s).pc.toNat + 1 < Config.memSize := by
  rcases Nat.lt_or_ge s.pc.toNat 0x0FFF with h | h
  · rw [fetchPoint_of_lt h, memSize_eq]; omega
  · rw [fetchPoint_of_le h, State.setPc_pc]; decide

/-- A byte of memory after a word is placed: its high byte at PC, its low byte after it, every other byte as before. -/
theorem get_placeWord_mem (hs : s.MemWf) (hr : s.pc.toNat + 1 < Config.memSize) (w : Word) (a : Nat) :
    Memory.get s.font (placeWord s w).mem a =
      if a = s.pc.toNat + 1 then lowByte w else if a = s.pc.toNat then highByte w else Memory.get s.font s.mem a := by
  have hw : Memory.wf s.font (Memory.put s.font s.mem s.pc.toNat (highByte w)) := Memory.wf_put hs (by omega) _
  rw [placeWord_mem, Memory.get_put hw.1, Memory.get_put hs.1]

/-- A placed word is the word at PC. -/
theorem placeWord_fetchesWord (hs : s.MemWf) (hr : s.pc.toNat + 1 < Config.memSize) (w : Word) :
    (placeWord s w).FetchesWord w := by
  refine ⟨hr, ?_⟩
  rw [placeWord_font, placeWord_pc, get_placeWord_mem hs hr, get_placeWord_mem hs hr, if_pos rfl, if_neg (by omega),
    if_pos rfl, wordOfBytes_bytes]

/-- Where two memories of one font hold the same byte, a read gives the same, in range or not. -/
theorem State.readByte_congr {t : State} {a : Nat} (hfont : t.font = s.font)
    (h : Memory.get s.font t.mem a = Memory.get s.font s.mem a) : t.readByte a = s.readByte a := by
  rw [State.readByte, State.readByte, memRead, memRead, hfont, h]

/-- A read away from the two bytes of a placed word gives what it gave before. -/
theorem readByte_placeWord (hs : s.MemWf) (hr : s.pc.toNat + 1 < Config.memSize) (w : Word) {a : Nat}
    (h0 : a ≠ s.pc.toNat) (h1 : a ≠ s.pc.toNat + 1) : (placeWord s w).readByte a = s.readByte a :=
  State.readByte_congr (placeWord_font s w) (by rw [get_placeWord_mem hs hr, if_neg h1, if_neg h0])

end

/-- Settles O10: the word is placed at the fetch point, where a fetch stays in range and reads it back. -/
theorem placedWordIsTheNextInstruction : Obligations.PlacedWordIsTheNextInstruction := by
  intro s w i hs hdec
  have hpoint := fetchPoint_eq_setPc s
  have hr := fetchPoint_inRange s
  have hs' : (fetchPoint s).MemWf := by rw [hpoint]; exact hs
  refine ⟨?runs, ?atPc, ?atEntry, ?bytes, ?frame⟩
  case runs => exact step_of_fetches (placeWord_fetchesWord hs' hr _) (decodeWord_of_decodeTableWord hdec)
  case atPc => intro h; rw [State.withFetchWord_pc, fetchPoint_of_lt h]
  case atEntry => intro h; rw [State.withFetchWord_pc, fetchPoint_of_le h, State.setPc_pc]
  case bytes =>
    intro a h0 h1
    calc (s.withFetchWord 16 w).readByte a
      _ = (fetchPoint s).readByte a := readByte_placeWord hs' hr _ h0 h1
      _ = s.readByte a := by rw [hpoint]; rfl
  case frame => rw [State.withFetchWord, hpoint]; rfl

end Sys2Proof.Machine
end

section
/-! Encoding: the decoder undoes the encoder and the encoder the decoder, the decoder against the opcode table, and the
illegal words (spec 30_encoding.md). -/

namespace Sys2Proof

open Machine Laws

/-! ## The round trip (R90, R93, R98) -/

/-- Decoding undoes encoding: the word has its family's major nibble, and its other fields are the operands. -/
theorem decodeWord_encode (i : Instr) : decodeWord (encode i) = .ok i := by
  cases i with
  | cls | ret => rfl
  | jp | call | ldI | jpV0 | seImm | sneImm | ldImm | addImm | rnd | drw => simp [encode, decodeWord]
  | seReg | sneReg => simp [encode, decodeWord, decodeXY0]
  | ldReg | orReg | andReg | xorReg | addReg | sub | shr | subn | shl => simp [encode, decodeWord, decode8]
  | skp | sknp => simp [encode, decodeWord, decodeE]
  | ldVxDt | ldVxK | ldDtVx | ldStVx | addIVx | ldFVx | ldBVx | ldMemVx | ldVxMem =>
    simp [encode, decodeWord, decodeF]

/-- The decoder reads the two bytes of a word as that word, and leaves the bytes after them. -/
theorem decodeBytes_bytesOfWord {op : Word} {i : Instr} (h : decodeWord op = .ok i) (rest : List Byte) :
    decodeBytes (bytesOfWord op ++ rest) = .ok (i, rest) := by
  simp only [bytesOfWord, List.cons_append, List.nil_append, decodeBytes, wordOfBytes_bytes, h]

/-- Settles O1: the round trip on words, carried over to the word's two bytes. -/
theorem decodeOfEncodeIsTheInstruction : Obligations.DecodeOfEncodeIsTheInstruction := fun i rest =>
  ⟨decodeWord_encode i, decodeBytes_bytesOfWord (decodeWord_encode i) rest⟩

/-! ## What an accepted word decodes to (R90, R93) -/

section
variable {op : Word} {i j : Instr} {x y : Reg}

theorem encode_of_decode0 (h : decode0 op = .ok i) : encode i = op := by
  rw [decode0] at h
  split at h
  · next hop => cases h; exact hop.symm
  split at h
  · next hop => cases h; exact hop.symm
  · cases h

theorem decodeXY0_eq_ok (h : decodeXY0 op j = .ok i) : i = j ∧ fieldD4 op = 0 := by
  rw [decodeXY0] at h
  split at h
  · next h4 => cases h; exact ⟨rfl, h4⟩
  · cases h

/-- In family 8 the operation is the last nibble, and Y is kept by 8XY6 and 8XYE too. -/
theorem encode_of_decode8 (h : decode8 op x y = .ok i) : encode i = wordXYN 0x8 x y (fieldD4 op) := by
  rw [decode8] at h
  split at h <;> cases h
  all_goals next h4 => rw [h4]; rfl

/-- In families E and F the operation is the last byte. -/
theorem encode_of_decodeE (h : decodeE op x = .ok i) : encode i = wordXNN 0xE x (fieldNN op) := by
  rw [decodeE] at h
  split at h <;> cases h
  all_goals next hnn => rw [hnn]; rfl

theorem encode_of_decodeF (h : decodeF op x = .ok i) : encode i = wordXNN 0xF x (fieldNN op) := by
  rw [decodeF] at h
  split at h <;> cases h
  all_goals next hnn => rw [hnn]; rfl

theorem wordNNN_of_fieldD1 {d : BitVec 4} (hd : fieldD1 op = d) : wordNNN d (fieldNNN op) = op :=
  hd ▸ wordNNN_fields op

theorem wordXNN_of_fieldD1 {d : BitVec 4} (hd : fieldD1 op = d) : wordXNN d (fieldX op) (fieldNN op) = op :=
  hd ▸ wordXNN_fields op

theorem wordXYN_of_fieldD1 {d : BitVec 4} (hd : fieldD1 op = d) :
    wordXYN d (fieldX op) (fieldY op) (fieldD4 op) = op :=
  hd ▸ wordXYN_fields op

/-- Encoding undoes decoding: in each family the fields the decoder reads make up the whole word. (The cases are the
branches of `decodeWord` in order, families 0 to F, and the branch no nibble is left for.) -/
theorem encode_of_decodeWord (h : decodeWord op = .ok i) : encode i = op := by
  rw [decodeWord] at h
  split at h
  case h_1 => exact encode_of_decode0 h
  case h_2 hd | h_3 hd | h_11 hd | h_12 hd => cases h; exact wordNNN_of_fieldD1 hd
  case h_4 hd | h_5 hd | h_7 hd | h_8 hd | h_13 hd => cases h; exact wordXNN_of_fieldD1 hd
  case h_6 hd | h_10 hd =>
    obtain ⟨rfl, h4⟩ := decodeXY0_eq_ok h
    have hw := wordXYN_of_fieldD1 hd
    rw [h4] at hw
    exact hw
  case h_9 hd => exact (encode_of_decode8 h).trans (wordXYN_of_fieldD1 hd)
  case h_14 hd => cases h; exact wordXYN_of_fieldD1 hd
  case h_15 hd => exact (encode_of_decodeE h).trans (wordXNN_of_fieldD1 hd)
  case h_16 hd => exact (encode_of_decodeF h).trans (wordXNN_of_fieldD1 hd)
  case h_17 => cases h

end

/-- Settles O2: encoding undoes decoding. -/
theorem decodedWordIsTheEncodingOfItsInstruction : Obligations.DecodedWordIsTheEncodingOfItsInstruction :=
  fun _ _ => encode_of_decodeWord

/-! ## The decoder against the opcode table (R93 to R95) -/

section
variable {op : Word} {i : Instr} {d n : BitVec 4} {nn : Byte}

/-! A word that shows a row's fixed nibbles under the row's mask is the word of those nibbles and its own operand fields. -/

theorem wordNNN_of_and (h : op &&& wordNNN 0xF 0 = wordNNN d 0) : wordNNN d (fieldNNN op) = op := by
  rw [← wordNNN_fields op, wordNNN_and] at h
  exact wordNNN_of_fieldD1 (by simpa using congrArg fieldD1 h)

theorem wordXNN_of_and (h : op &&& wordXNN 0xF 0 0 = wordXNN d 0 0) : wordXNN d (fieldX op) (fieldNN op) = op := by
  rw [← wordXNN_fields op, wordXNN_and] at h
  exact wordXNN_of_fieldD1 (by simpa using congrArg fieldD1 h)

theorem wordXNN_of_and_low (h : op &&& wordXNN 0xF 0 0xFF = wordXNN d 0 nn) : wordXNN d (fieldX op) nn = op := by
  rw [← wordXNN_fields op, wordXNN_and_low] at h
  have hnn : fieldNN op = nn := by simpa using congrArg fieldNN h
  exact hnn ▸ wordXNN_of_fieldD1 (by simpa using congrArg fieldD1 h)

theorem wordXYN_of_and (h : op &&& wordXYN 0xF 0 0 0xF = wordXYN d 0 0 n) :
    wordXYN d (fieldX op) (fieldY op) n = op := by
  rw [← wordXYN_fields op, wordXYN_and] at h
  have hn : fieldD4 op = n := by simpa using congrArg fieldD4 h
  exact hn ▸ wordXYN_of_fieldD1 (by simpa using congrArg fieldD1 h)

theorem wordXYN_of_and_high (h : op &&& wordXYN 0xF 0 0 0 = wordXYN d 0 0 0) :
    wordXYN d (fieldX op) (fieldY op) (fieldD4 op) = op := by
  rw [← wordXYN_fields op, wordXYN_and_high] at h
  exact wordXYN_of_fieldD1 (by simpa using congrArg fieldD1 h)

/-- Each instruction stands in its row: the lemmas of `Laws.EncodesInItsRow` together. -/
theorem encode_matches_row (i : Instr) : EncodesInItsRow.Statement i := by
  cases i with
  | cls => exact EncodesInItsRow.cls
  | ret => exact EncodesInItsRow.ret
  | jp nnn => exact EncodesInItsRow.jp nnn
  | call nnn => exact EncodesInItsRow.call nnn
  | seImm x nn => exact EncodesInItsRow.seImm x nn
  | sneImm x nn => exact EncodesInItsRow.sneImm x nn
  | seReg x y => exact EncodesInItsRow.seReg x y
  | ldImm x nn => exact EncodesInItsRow.ldImm x nn
  | addImm x nn => exact EncodesInItsRow.addImm x nn
  | ldReg x y => exact EncodesInItsRow.ldReg x y
  | orReg x y => exact EncodesInItsRow.orReg x y
  | andReg x y => exact EncodesInItsRow.andReg x y
  | xorReg x y => exact EncodesInItsRow.xorReg x y
  | addReg x y => exact EncodesInItsRow.addReg x y
  | sub x y => exact EncodesInItsRow.sub x y
  | shr x y => exact EncodesInItsRow.shr x y
  | subn x y => exact EncodesInItsRow.subn x y
  | shl x y => exact EncodesInItsRow.shl x y
  | sneReg x y => exact EncodesInItsRow.sneReg x y
  | ldI nnn => exact EncodesInItsRow.ldI nnn
  | jpV0 nnn => exact EncodesInItsRow.jpV0 nnn
  | rnd x nn => exact EncodesInItsRow.rnd x nn
  | drw x y n => exact EncodesInItsRow.drw x y n
  | skp x => exact EncodesInItsRow.skp x
  | sknp x => exact EncodesInItsRow.sknp x
  | ldVxDt x => exact EncodesInItsRow.ldVxDt x
  | ldVxK x => exact EncodesInItsRow.ldVxK x
  | ldDtVx x => exact EncodesInItsRow.ldDtVx x
  | ldStVx x => exact EncodesInItsRow.ldStVx x
  | addIVx x => exact EncodesInItsRow.addIVx x
  | ldFVx x => exact EncodesInItsRow.ldFVx x
  | ldBVx x => exact EncodesInItsRow.ldBVx x
  | ldMemVx x => exact EncodesInItsRow.ldMemVx x
  | ldVxMem x => exact EncodesInItsRow.ldVxMem x

/-- A word that decodes matches the row of its instruction (R93). -/
theorem matches_row_of_decodeWord (h : decodeWord op = .ok i) :
    i.row ∈ opcodeTable ∧ op &&& i.row.mask = i.row.pattern := by
  obtain ⟨hmem, hhits⟩ := encode_matches_row i
  rw [encode_of_decodeWord h] at hhits
  exact ⟨hmem, beq_iff_eq.1 hhits⟩

/-- Every row of the table is that of an instruction. -/
theorem exists_row_eq_of_mem {row : OpcodeRow} (h : row ∈ opcodeTable) : ∃ i : Instr, i.row = row := by
  simp only [opcodeTable, ← List.map_append] at h
  obtain ⟨i, -, hi⟩ := List.mem_map.1 h
  exact ⟨i, hi⟩

/-- A word that matches the row of an instruction encodes an instruction of that row: the one whose operands are the
word's own fields. -/
theorem exists_encode_of_matches_row (i : Instr) (h : op &&& i.row.mask = i.row.pattern) :
    ∃ j : Instr, encode j = op ∧ j.row = i.row := by
  cases i with
  | cls => exact ⟨.cls, (BitVec.and_allOnes.symm.trans h).symm, rfl⟩
  | ret => exact ⟨.ret, (BitVec.and_allOnes.symm.trans h).symm, rfl⟩
  | jp => exact ⟨.jp (fieldNNN op), wordNNN_of_and h, rfl⟩
  | call => exact ⟨.call (fieldNNN op), wordNNN_of_and h, rfl⟩
  | seImm => exact ⟨.seImm (fieldX op) (fieldNN op), wordXNN_of_and h, rfl⟩
  | sneImm => exact ⟨.sneImm (fieldX op) (fieldNN op), wordXNN_of_and h, rfl⟩
  | seReg => exact ⟨.seReg (fieldX op) (fieldY op), wordXYN_of_and h, rfl⟩
  | ldImm => exact ⟨.ldImm (fieldX op) (fieldNN op), wordXNN_of_and h, rfl⟩
  | addImm => exact ⟨.addImm (fieldX op) (fieldNN op), wordXNN_of_and h, rfl⟩
  | ldReg => exact ⟨.ldReg (fieldX op) (fieldY op), wordXYN_of_and h, rfl⟩
  | orReg => exact ⟨.orReg (fieldX op) (fieldY op), wordXYN_of_and h, rfl⟩
  | andReg => exact ⟨.andReg (fieldX op) (fieldY op), wordXYN_of_and h, rfl⟩
  | xorReg => exact ⟨.xorReg (fieldX op) (fieldY op), wordXYN_of_and h, rfl⟩
  | addReg => exact ⟨.addReg (fieldX op) (fieldY op), wordXYN_of_and h, rfl⟩
  | sub => exact ⟨.sub (fieldX op) (fieldY op), wordXYN_of_and h, rfl⟩
  | shr => exact ⟨.shr (fieldX op) (fieldY op), wordXYN_of_and h, rfl⟩
  | subn => exact ⟨.subn (fieldX op) (fieldY op), wordXYN_of_and h, rfl⟩
  | shl => exact ⟨.shl (fieldX op) (fieldY op), wordXYN_of_and h, rfl⟩
  | sneReg => exact ⟨.sneReg (fieldX op) (fieldY op), wordXYN_of_and h, rfl⟩
  | ldI => exact ⟨.ldI (fieldNNN op), wordNNN_of_and h, rfl⟩
  | jpV0 => exact ⟨.jpV0 (fieldNNN op), wordNNN_of_and h, rfl⟩
  | rnd => exact ⟨.rnd (fieldX op) (fieldNN op), wordXNN_of_and h, rfl⟩
  | drw => exact ⟨.drw (fieldX op) (fieldY op) (fieldN op), wordXYN_of_and_high h, rfl⟩
  | skp => exact ⟨.skp (fieldX op), wordXNN_of_and_low h, rfl⟩
  | sknp => exact ⟨.sknp (fieldX op), wordXNN_of_and_low h, rfl⟩
  | ldVxDt => exact ⟨.ldVxDt (fieldX op), wordXNN_of_and_low h, rfl⟩
  | ldVxK => exact ⟨.ldVxK (fieldX op), wordXNN_of_and_low h, rfl⟩
  | ldDtVx => exact ⟨.ldDtVx (fieldX op), wordXNN_of_and_low h, rfl⟩
  | ldStVx => exact ⟨.ldStVx (fieldX op), wordXNN_of_and_low h, rfl⟩
  | addIVx => exact ⟨.addIVx (fieldX op), wordXNN_of_and_low h, rfl⟩
  | ldFVx => exact ⟨.ldFVx (fieldX op), wordXNN_of_and_low h, rfl⟩
  | ldBVx => exact ⟨.ldBVx (fieldX op), wordXNN_of_and_low h, rfl⟩
  | ldMemVx => exact ⟨.ldMemVx (fieldX op), wordXNN_of_and_low h, rfl⟩
  | ldVxMem => exact ⟨.ldVxMem (fieldX op), wordXNN_of_and_low h, rfl⟩

/-- A word that matches a row of the table decodes to an instruction of that row. -/
theorem decodeWord_of_matches_row {row : OpcodeRow} (hmem : row ∈ opcodeTable) (h : op &&& row.mask = row.pattern) :
    ∃ j, decodeWord op = .ok j ∧ j.row = row := by
  obtain ⟨i, rfl⟩ := exists_row_eq_of_mem hmem
  obtain ⟨j, rfl, hrow⟩ := exists_encode_of_matches_row i h
  exact ⟨j, decodeWord_encode j, hrow⟩

end

/-! ## The illegal words (R95 to R97) -/

section
variable {op : Word} {e : DecodeError} {i : Instr} {x y : Reg}

/-- The sub-opcodes of family 8 that are none of the table's are those of R96. -/
theorem illegal8_of_not_mem : ∀ d : BitVec 4, d ∉ [0x0, 0x1, 0x2, 0x3, 0x4, 0x5, 0x6, 0x7, 0xE] →
    [0x8, 0x9, 0xA, 0xB, 0xC, 0xD, 0xF].contains d = true := by
  decide

/-- The sixteen families are all the values of d1. -/
theorem nibble_mem (d : BitVec 4) :
    d ∈ [0x0, 0x1, 0x2, 0x3, 0x4, 0x5, 0x6, 0x7, 0x8, 0x9, 0xA, 0xB, 0xC, 0xD, 0xE, 0xF] := by
  revert d; decide

theorem decode0_eq_error (h : decode0 op = .error e) : e = .unknownOpcode op ∧ op ≠ 0x00E0 ∧ op ≠ 0x00EE := by
  rw [decode0] at h
  split at h
  · cases h
  · next hcls =>
    split at h
    · cases h
    · next hret => cases h; exact ⟨rfl, hcls, hret⟩

theorem decodeXY0_eq_error (h : decodeXY0 op i = .error e) : e = .unknownOpcode op ∧ fieldD4 op ≠ 0 := by
  rw [decodeXY0] at h
  split at h
  · cases h
  · next h4 => cases h; exact ⟨rfl, h4⟩

/-- Past the nine operations of family 8 the last nibble is one of the seven others. -/
theorem decode8_eq_error (h : decode8 op x y = .error e) :
    e = .unknownOpcode op ∧ [0x8, 0x9, 0xA, 0xB, 0xC, 0xD, 0xF].contains (fieldD4 op) = true := by
  rw [decode8] at h
  split at h <;> cases h
  have hrest : fieldD4 op ∉ [0x0, 0x1, 0x2, 0x3, 0x4, 0x5, 0x6, 0x7, 0xE] := by simp_all
  exact ⟨rfl, illegal8_of_not_mem _ hrest⟩

/-- Past the two operations of family E the last byte is neither. -/
theorem decodeE_eq_error (h : decodeE op x = .error e) :
    e = .unknownOpcode op ∧ [0x9E, 0xA1].contains (fieldNN op) = false := by
  rw [decodeE] at h
  split at h <;> cases h
  exact ⟨rfl, by simp_all⟩

/-- Past the nine operations of family F the last byte is none of them. -/
theorem decodeF_eq_error (h : decodeF op x = .error e) :
    e = .unknownOpcode op ∧ [0x07, 0x0A, 0x15, 0x18, 0x1E, 0x29, 0x33, 0x55, 0x65].contains (fieldNN op) = false := by
  rw [decodeF] at h
  split at h <;> cases h
  exact ⟨rfl, by simp_all⟩

/-- The decoder rejects a word with the whole word, and only where it lies in one of the spaces of R96. -/
theorem decodeWord_eq_error (h : decodeWord op = .error e) :
    e = .unknownOpcode op ∧ ∃ space ∈ illegalSpaces, space op = true := by
  rw [decodeWord] at h
  split at h
  case h_1 hd =>
    obtain ⟨he, hcls, hret⟩ := decode0_eq_error h
    exact ⟨he, by simpa [illegalSpaces, hd] using And.intro hcls hret⟩
  case h_6 hd | h_10 hd =>
    obtain ⟨he, h4⟩ := decodeXY0_eq_error h
    exact ⟨he, by simpa [illegalSpaces, hd] using h4⟩
  case h_9 hd =>
    obtain ⟨he, h4⟩ := decode8_eq_error h
    exact ⟨he, by simpa [illegalSpaces, hd] using h4⟩
  case h_15 hd =>
    obtain ⟨he, hnn⟩ := decodeE_eq_error h
    exact ⟨he, by simpa [illegalSpaces, hd] using hnn⟩
  case h_16 hd =>
    obtain ⟨he, hnn⟩ := decodeF_eq_error h
    exact ⟨he, by simpa [illegalSpaces, hd] using hnn⟩
  case h_17 =>
    have hmem := nibble_mem (fieldD1 op)
    simp_all
  all_goals cases h

/-- No encoding lies in one of the spaces of R96: its family has none, or its last nibble or byte is one of the table's. -/
theorem not_illegal_encode (i : Instr) : ¬ ∃ space ∈ illegalSpaces, space (encode i) = true := by
  cases i with
  | cls | ret => decide
  | _ => simp [illegalSpaces, encode]

end

/-- Settles O5: the decoder rejects a word in its space only, and a word it accepts is an encoding, which lies in none. -/
theorem illegalWordsAreThoseOfTheSixSpaces : Obligations.IllegalWordsAreThoseOfTheSixSpaces := by
  refine fun op => ⟨fun h => (decodeWord_eq_error h).2, fun hillegal => ?_⟩
  cases hd : decodeWord op with
  | ok i => exact absurd (encode_of_decodeWord hd ▸ hillegal) (not_illegal_encode i)
  | error e => rw [(decodeWord_eq_error hd).1]

/-- Settles O3: an accepted word matches its instruction's row, and only an accepted one matches a row. -/
theorem decoderFollowsTheOpcodeTable : Obligations.DecoderFollowsTheOpcodeTable := by
  refine fun op => ⟨fun i => matches_row_of_decodeWord, fun row => decodeWord_of_matches_row, fun hno => ?_⟩
  cases hd : decodeWord op with
  | ok i =>
    obtain ⟨hmem, hmatch⟩ := matches_row_of_decodeWord hd
    exact absurd hmatch (hno _ hmem)
  | error e => rw [(decodeWord_eq_error hd).1]

/-- Settles O4: a word that matched two rows would decode to an instruction of each, and the rows are all different. -/
theorem opcodePatternsAreDisjoint : Obligations.OpcodePatternsAreDisjoint := by
  have hnodup : opcodeTable.Nodup := by decide
  refine ⟨rfl, fun op => hnodup.imp_of_mem ?_⟩
  rintro r r' hr hr' hne ⟨h, h'⟩
  obtain ⟨i, hi, rfl⟩ := decodeWord_of_matches_row hr h
  obtain ⟨j, hj, rfl⟩ := decodeWord_of_matches_row hr' h'
  cases hi.symm.trans hj
  exact hne rfl

/-- Settles O6: each word evaluated. -/
theorem sampleWordsDecodeAsTheTableSays : Obligations.SampleWordsDecodeAsTheTableSays := by
  unfold Obligations.SampleWordsDecodeAsTheTableSays
  decide

end Sys2Proof
end

section
/-! The tick: the instruction it runs, where it leaves PC, its failures, and the random source (spec 40_tick_cycle.md). -/

namespace Sys2Proof.Machine

/-! ## The instruction a tick runs, and its fetch (R120 to R125) -/

/-- Settles O7: a fetched word that decodes is run from the advanced PC. -/
theorem tickRunsTheDecodedInstruction : Obligations.TickRunsTheDecodedInstruction := fun _ _ _ => step_of_fetches

/-- Settles O8: where a byte of the fetch is out of range, the payload is the greater of PC and 0x1000;
below it both bytes are in range, and they are the word. -/
theorem fetchOutOfRangeFaults : Obligations.FetchOutOfRangeFaults := by
  intro s
  refine ⟨fun h => ?above, fun h => ?last, fun h => ⟨_, by rw [memSize_eq]; omega, rfl⟩⟩
  case above =>
    have hpc : (0x1000 : Word) ≤ s.pc := h
    rw [step_of_outOfRange (by rw [memSize_eq]; omega), outOfRange_max, if_pos hpc]
  case last =>
    have hpc : ¬ (0x1000 : Word) ≤ s.pc := fun (hle : 0x1000 ≤ s.pc.toNat) => by omega
    rw [step_of_outOfRange (by rw [memSize_eq]; omega), outOfRange_max, if_neg hpc]

/-! ## PC after a tick (R126) -/

/-- An effect of an instruction whose rule does not write PC keeps PC. -/
theorem Effect.pc_eq {i : Instr} {s t : State} (h : Effect s i t) (hi : ¬ Redirects i) : t.pc = s.pc := by
  cases h with
  | pc hredirects => exact absurd hredirects hi
  | ret | call => exact absurd trivial hi
  | _ => rfl

/-- Settles O11: the fetch advances PC by 2, and the effect keeps it there. -/
theorem pcAdvancesByTwoUnlessRedirected : Obligations.PcAdvancesByTwoUnlessRedirected := by
  rintro s t i ⟨op, hf, hd⟩ hi ht
  rw [step_of_fetches hf hd] at ht
  exact (effect_of_exec ht).pc_eq hi

/-! ## Failed ticks (R124, R131) -/

/-- The error of a block access at I: I where it is out of range itself, else 0x1000 (R68, R69). -/
def State.blockFault (s : State) : Fault := .memoryOutOfRange (if 0x1000 ≤ s.i then s.i else 0x1000)

/-- Instruction `i` fails on the state `s` with an error: one constructor per instruction that can fail, with its condition. -/
inductive Fails (s : State) : Instr → Fault → Prop where
  | ret (h : s.sp.val = 0) : Fails s .ret .stackUnderflow
  | call (nnn) (h : s.sp.val = 16) : Fails s (.call nnn) .stackOverflow
  | skp (x) (h : 16 ≤ s.v[x].toNat) : Fails s (.skp x) (.keyIndexOutOfRange s.v[x])
  | sknp (x) (h : 16 ≤ s.v[x].toNat) : Fails s (.sknp x) (.keyIndexOutOfRange s.v[x])
  | drw (x y n) (h : 0 < n.val ∧ 0x1000 < s.indexed n.val) : Fails s (.drw x y n) s.blockFault
  | ldBVx (x) (h : 0x1000 ≤ s.indexed 2) : Fails s (.ldBVx x) s.blockFault
  | ldMemVx (x) (h : 0x1000 ≤ s.indexed x.val) : Fails s (.ldMemVx x) s.blockFault
  | ldVxMem (x) (h : 0x1000 ≤ s.indexed x.val) : Fails s (.ldVxMem x) s.blockFault

section
variable {i : Instr} {s : State} {e : Fault}

/-- Every instruction that ends in an error fails in one of these ways. -/
theorem fails_of_exec (h : exec i s = .fault e) : Fails s i e := by
  cases i with
  | ret =>
    rcases exec_ret_cases s with ⟨k, -, he⟩ | ⟨h0, he⟩ <;> cases he.symm.trans h
    exact .ret h0
  | call nnn =>
    rcases exec_call_cases nnn s with ⟨k, -, he⟩ | ⟨h16, he⟩ <;> cases he.symm.trans h
    exact .call nnn h16
  | skp x =>
    rcases exec_skp_cases x s with ⟨k, -, he⟩ | ⟨hx, he⟩ <;> cases he.symm.trans h
    exact .skp x hx
  | sknp x =>
    rcases exec_sknp_cases x s with ⟨k, -, he⟩ | ⟨hx, he⟩ <;> cases he.symm.trans h
    exact .sknp x hx
  | ldVxK x => rcases exec_ldVxK_cases x s with ⟨-, he⟩ | ⟨k, -, he⟩ <;> cases he.symm.trans h
  | drw x y n =>
    rcases exec_drw_cases x y n s with ⟨-, he⟩ | ⟨hr, he⟩ <;> cases he.symm.trans h
    exact .drw x y n hr
  | ldBVx x =>
    rcases exec_ldBVx_cases x s with ⟨-, m, he, -⟩ | ⟨hr, he⟩ <;> cases he.symm.trans h
    exact .ldBVx x hr
  | ldMemVx x =>
    rcases exec_ldMemVx_cases x s with ⟨-, m, he, -⟩ | ⟨hr, he⟩ <;> cases he.symm.trans h
    exact .ldMemVx x hr
  | ldVxMem x =>
    rcases exec_ldVxMem_cases x s with ⟨-, he⟩ | ⟨hr, he⟩ <;> cases he.symm.trans h
    exact .ldVxMem x hr
  | _ => cases h

/-- An instruction whose condition to fail holds ends in its error: the condition excludes the other outcome. -/
theorem Fails.exec (h : Fails s i e) : Machine.exec i s = .fault e := by
  cases h with
  | ret h => exact exec_ret_of_empty h
  | call nnn h => exact exec_call_of_full h
  | skp x h => exact ((exec_skp_cases x s).resolve_left fun ⟨k, hk, _⟩ => by omega).2
  | sknp x h => exact ((exec_sknp_cases x s).resolve_left fun ⟨k, hk, _⟩ => by omega).2
  | drw x y n h => exact ((exec_drw_cases x y n s).resolve_left fun ⟨hr, _⟩ => by omega).2
  | ldBVx x h => exact ((exec_ldBVx_cases x s).resolve_left fun ⟨hr, _⟩ => by omega).2
  | ldMemVx x h => exact ((exec_ldMemVx_cases x s).resolve_left fun ⟨hr, _⟩ => by omega).2
  | ldVxMem x h => exact ((exec_ldVxMem_cases x s).resolve_left fun ⟨hr, _⟩ => by omega).2

/-- The state with other timers and another keypad: what tick_timers and keypress can change (R253, R254). -/
def State.withDevices (s : State) (dt st : Byte) (key : Vector Bool 16) : State := { s with dt := dt, st := st, key := key }

variable (dt st : Byte) (key : Vector Bool 16)

/-- No condition to fail, and no error, reads a timer or the keypad. -/
theorem Fails.withDevices (h : Fails s i e) : Fails (s.withDevices dt st key) i e := by
  cases h with
  | ret h => exact .ret h
  | call nnn h => exact .call nnn h
  | skp x h => exact .skp x h
  | sknp x h => exact .sknp x h
  | drw x y n h => exact .drw x y n h
  | ldBVx x h => exact .ldBVx x h
  | ldMemVx x h => exact .ldMemVx x h
  | ldVxMem x h => exact .ldVxMem x h

/-- A tick that fails does so in its fetch, its decode or its execute step, whatever the timers and the keypad hold. -/
theorem step_withDevices_of_fault (h : step s = .fault e) : step (s.withDevices dt st key) = .fault e := by
  rcases step_cases s with ⟨op, i, hf, hd, he⟩ | ⟨op, e', hf, hd, he⟩ | ⟨hr, he⟩ <;> rw [he] at h
  · exact (step_of_fetches (s := s.withDevices dt st key) hf hd).trans ((fails_of_exec h).withDevices dt st key).exec
  · exact (step_of_illegal (s := s.withDevices dt st key) hf hd).trans h
  · exact (step_of_outOfRange (s := s.withDevices dt st key) hr).trans h

end

/-- Settles O12: a fault carries no state, and tick_timers and keypress change the timers and the keypad alone. -/
theorem failedTickChangesNothingAndRepeats : Obligations.FailedTickChangesNothingAndRepeats := fun s e h =>
  ⟨by rw [applyOp, h], step_withDevices_of_fault (countDown s.dt) (countDown s.st) s.key h,
    fun k p => step_withDevices_of_fault s.dt s.st (s.key.set k p) h⟩

/-! ## The random source (R129, R130) -/

/-- The state with another count of draws. -/
def State.withDraws (s : State) (d : Nat) : State := { s with draws := d }

section
variable (s : State) (d : Nat)

@[simp] theorem State.withDraws_v : (s.withDraws d).v = s.v := rfl
@[simp] theorem State.withDraws_key : (s.withDraws d).key = s.key := rfl
@[simp] theorem State.withDraws_reg (x : Reg) : (s.withDraws d).reg x = s.reg x := rfl
@[simp] theorem State.withDraws_readAtI (n : Nat) : (s.withDraws d).readAtI n = s.readAtI n := rfl

@[simp] theorem State.withDraws_writeAtI (bs : List Byte) :
    (s.withDraws d).writeAtI bs = (s.writeAtI bs).map (·.withDraws d) := by
  simp only [State.writeAtI, State.writeBytes, State.withDraws, State.indexed_zero]
  cases writeBlock s.font s.mem s.i.toNat bs <;> rfl

/-- No instruction but RND reads or writes the count of draws. -/
theorem exec_withDraws {i : Instr} (hrnd : ∀ x nn, i ≠ .rnd x nn) :
    exec i (s.withDraws d) = mapNext (·.withDraws d) (exec i s) := by
  cases i with
  | rnd x nn => exact absurd rfl (hrnd x nn)
  | ret =>
    rcases exec_ret_cases s with ⟨k, hk, he⟩ | ⟨h0, he⟩ <;> rw [he]
    · exact exec_ret_of_sp (s := s.withDraws d) hk
    · exact exec_ret_of_empty (s := s.withDraws d) h0
  | call nnn =>
    rcases exec_call_cases nnn s with ⟨k, hk, he⟩ | ⟨h16, he⟩ <;> rw [he]
    · exact exec_call_of_sp (s := s.withDraws d) hk
    · exact exec_call_of_full (s := s.withDraws d) h16
  | skp x | sknp x => simp only [exec, execSkp, execSknp, State.withDraws_reg]; cases keyIndex (s.reg x) <;> rfl
  | ldVxK x => simp only [exec, execLdVxK, State.withDraws_key]; cases lowestKey s.key <;> rfl
  | drw x y n => simp only [exec, execDrw, State.withDraws_readAtI]; cases s.readAtI n.val <;> rfl
  | ldVxMem x => simp only [exec, execLdVxMem, State.withDraws_readAtI]; cases s.readAtI (x.val + 1) <;> rfl
  | ldBVx x =>
    simp only [exec, execLdBVx, State.withDraws_reg, State.withDraws_writeAtI]
    cases s.writeAtI (decimalDigits (s.reg x)) <;> rfl
  | ldMemVx x =>
    simp only [exec, execLdMemVx, State.withDraws_v, State.withDraws_writeAtI]
    cases s.writeAtI (takeBlock s.v x) <;> rfl
  | _ => rfl

end

/-- Settles O13: only RND uses the count of draws. -/
theorem onlyRndDependsOnTheRandomSource : Obligations.OnlyRndDependsOnTheRandomSource := by
  intro i s d hrnd
  refine (exec_withDraws s d hrnd).trans ?_
  cases exec i s <;> rfl

end Sys2Proof.Machine
end

section
/-! Control transfer: the return and the call, the jumps, and the skips on registers and immediates (spec
41_control_flow.md). -/

namespace Sys2Proof.Machine

/-! ## RET and CALL (R140, R142) -/

/-- An entry of the stack after one was written (R31, R32). -/
theorem Stack.get_set (stack : Vector Word 16) (k j : Fin 16) (w : Word) :
    (stack.set k w)[j] = if j = k then w else stack[j] := by
  simp only [Fin.getElem_fin, Vector.getElem_set, Fin.ext_iff, eq_comm]

/-- Settles O19: the two outcomes of RET, by SP. -/
theorem retPopsTheStackIntoPc : Obligations.RetPopsTheStackIntoPc := by
  refine ⟨decodeWord_encode .ret, fun s => ⟨fun k hk => ?completes, fun h0 => ?fails⟩⟩
  case completes => exact ⟨_, exec_ret_of_sp hk, rfl, rfl, rfl⟩
  case fails => exact exec_ret_of_empty (congrArg Fin.val h0)

/-- Settles O20: the two outcomes of CALL, by SP; the entry written is the one at SP. -/
theorem callPushesPcAndJumps : Obligations.CallPushesPcAndJumps := by
  refine fun nnn => ⟨decodeWord_encode (.call nnn), fun s => ⟨fun k hk => ?completes, exec_call_of_full⟩⟩
  case completes =>
    refine ⟨_, exec_call_of_sp hk, ?entry, rfl, zextAddr_toNat nnn, fun j hj => ?others, rfl⟩
    case entry => exact (Stack.get_set s.stack k k s.pc).trans (if_pos rfl)
    case others => exact (Stack.get_set s.stack k j s.pc).trans (if_neg hj)

/-- Settles O24: the return pops the entry that the call wrote. -/
theorem callThenReturnResumesAfterTheCall : Obligations.CallThenReturnResumesAfterTheCall := by
  intro nnn s hlt
  obtain ⟨k, hk⟩ : ∃ k : Fin 16, s.sp.val = k.val := ⟨⟨s.sp.val, hlt⟩, rfl⟩
  refine ⟨_, exec_call_of_sp hk, fun t' hsp hstack => ?_⟩
  have hk' : t'.sp.val = k.val + 1 := congrArg Fin.val hsp
  have hentry : t'.stack[k] = s.pc := by rw [hstack, Stack.get_set, if_pos rfl]
  exact ⟨_, exec_ret_of_sp hk', hentry, Fin.ext hk.symm, rfl⟩

/-! ## The jumps (R141, R143) -/

/-- An address and a byte add up to at most 0x10FE, so their sum does not wrap in 16 bits (R143). -/
theorem zextAddr_add_zextByte_toNat (nnn : Addr) (b : Byte) :
    (zextAddr nnn + zextByte b).toNat = nnn.toNat + b.toNat := by
  have hnnn := nnn.isLt
  have hb := b.isLt
  rw [BitVec.toNat_add, zextAddr_toNat, zextByte_toNat, Nat.mod_eq_of_lt (by omega)]

/-- Settles O21: both jumps write PC alone, and the target's sum does not wrap. -/
theorem jumpsSetPc : Obligations.JumpsSetPc := fun nnn s =>
  ⟨decodeWord_encode (.jp nnn), decodeWord_encode (.jpV0 nnn),
    ⟨s.setPc (zextAddr nnn), rfl, zextAddr_toNat nnn, rfl⟩,
    ⟨s.setPc (zextAddr nnn + zextByte s.v[0]), rfl, zextAddr_add_zextByte_toNat nnn s.v[0], rfl⟩⟩

/-! ## The skips (R144 to R148) -/

/-- A skip whose condition is true where `p` holds and false where `q` does moves PC by 2 under `p`, keeps it under `q`,
and writes nothing else (R148). -/
theorem State.skipIf_spec (s : State) {taken : Bool} {p q : Prop} (hp : p → taken = true) (hq : q → taken = false) :
    (p → (s.skipIf taken).pc = s.pc + 2) ∧ (q → (s.skipIf taken).pc = s.pc) ∧
    s.skipIf taken = { s with pc := (s.skipIf taken).pc } := by
  refine ⟨fun h => ?_, fun h => ?_, rfl⟩
  · rw [hp h]; rfl
  · rw [hq h]; rfl

/-- Settles O22: the comparison with NN is the condition of the skip. -/
theorem immediateSkipsCompareVxWithNn : Obligations.ImmediateSkipsCompareVxWithNn := fun x nn s =>
  ⟨decodeWord_encode (.seImm x nn), decodeWord_encode (.sneImm x nn),
    ⟨_, rfl, s.skipIf_spec beq_iff_eq.2 beq_eq_false_iff_ne.2⟩,
    ⟨_, rfl, s.skipIf_spec bne_iff_ne.2 bne_eq_false_iff_eq.2⟩⟩

/-- Settles O23: the comparison with VY is the condition of the skip. -/
theorem registerSkipsCompareVxWithVy : Obligations.RegisterSkipsCompareVxWithVy := fun x y s =>
  ⟨decodeWord_encode (.seReg x y), decodeWord_encode (.sneReg x y),
    ⟨_, rfl, s.skipIf_spec beq_iff_eq.2 beq_eq_false_iff_ne.2⟩,
    ⟨_, rfl, s.skipIf_spec bne_iff_ne.2 bne_eq_false_iff_eq.2⟩⟩

end Sys2Proof.Machine
end

section
/-! Loads, logic and arithmetic: an instruction that writes VX alone, one that writes VX and then a flag to VF, and the
random draw (spec 42_alu.md). -/

namespace Sys2Proof.Machine

/-! ## A result in VX alone (R160 to R165, R171) -/

/-- The register written holds the byte written (R22). -/
theorem State.setV_get_self (s : State) (x : Reg) (b : Byte) : (s.setV x b).v[x] = b :=
  (Regs.get_set s.v x x b).trans (if_pos rfl)

/-- The other registers are kept (R22). -/
theorem State.setV_get_of_ne (s : State) {x r : Reg} (b : Byte) (hr : r ≠ x) : (s.setV x b).v[r] = s.v[r] :=
  (Regs.get_set s.v x r b).trans (if_neg hr)

/-- Writing a result that satisfies `p` to VX: VX satisfies `p`, and no other register and no other element changes. -/
theorem State.setV_spec (s : State) (x : Reg) (p : Byte → Prop) {b : Byte} (hb : p b) :
    p (s.setV x b).v[x] ∧ (∀ r : Reg, r ≠ x → (s.setV x b).v[r] = s.v[r]) ∧ s.setV x b = { s with v := (s.setV x b).v } :=
  ⟨(s.setV_get_self x b).symm ▸ hb, fun _ hr => s.setV_get_of_ne b hr, rfl⟩

/-- Settles O26: each of the three writes its result to VX alone; only the sum needs arithmetic. -/
theorem loadsAndImmediateAddWriteVxOnly : Obligations.LoadsAndImmediateAddWriteVxOnly := fun x y nn s =>
  ⟨decodeWord_encode (.ldImm x nn), decodeWord_encode (.addImm x nn), decodeWord_encode (.ldReg x y),
    ⟨_, rfl, s.setV_spec x (· = nn) rfl⟩,
    ⟨_, rfl, s.setV_spec x (·.toNat = (s.v[x].toNat + nn.toNat) % 256) (BitVec.toNat_add s.v[x] nn)⟩,
    ⟨_, rfl, s.setV_spec x (· = s.v[y]) rfl⟩⟩

/-- Settles O27: the word operations act bit by bit, and each writes its result to VX alone. -/
theorem logicWritesVxOnly : Obligations.LogicWritesVxOnly := fun x y s =>
  ⟨decodeWord_encode (.orReg x y), decodeWord_encode (.andReg x y), decodeWord_encode (.xorReg x y),
    ⟨_, rfl, s.setV_spec x (fun c => ∀ k < 8, c.getLsbD k = (s.v[x].getLsbD k || s.v[y].getLsbD k))
      fun _ _ => BitVec.getLsbD_or⟩,
    ⟨_, rfl, s.setV_spec x (fun c => ∀ k < 8, c.getLsbD k = (s.v[x].getLsbD k && s.v[y].getLsbD k))
      fun _ _ => BitVec.getLsbD_and⟩,
    ⟨_, rfl, s.setV_spec x (fun c => ∀ k < 8, c.getLsbD k = (s.v[x].getLsbD k != s.v[y].getLsbD k))
      fun _ _ => BitVec.getLsbD_xor⟩⟩

/-- Settles O31: the draw moves the count on by one, and the masked byte is then a result in VX alone. -/
theorem rndWritesOneMaskedDraw : Obligations.RndWritesOneMaskedDraw := by
  intro x nn s
  obtain ⟨hx, hr, -⟩ := (drawByte s).2.setV_spec x (· = Config.nextByte s.draws &&& nn) rfl
  exact ⟨decodeWord_encode (.rnd x nn), _, rfl, hx, rfl, hr, rfl⟩

/-! ## A result in VX and then a flag in VF (R166 to R170, R173) -/

/-- Writing a result that satisfies `p` to VX and then a flag of value `n` to VF: VF is `n` whatever X is, VX satisfies
`p` unless it is VF, and no other register and no other element changes (R173). -/
theorem State.setVThenFlag_spec (s : State) (x : Reg) {b flag : Byte} {n : Nat} (hflag : flag.toNat = n)
    (p : Byte → Prop) (hb : p b) :
    (s.setVThenFlag x b flag).v[15].toNat = n ∧ (x ≠ 15 → p (s.setVThenFlag x b flag).v[x]) ∧
    (∀ r : Reg, r ≠ x → r ≠ 15 → (s.setVThenFlag x b flag).v[r] = s.v[r]) ∧
    s.setVThenFlag x b flag = { s with v := (s.setVThenFlag x b flag).v } := by
  refine ⟨?flag, fun hx => ?result, fun r hrx hr15 => ?others, rfl⟩
  case flag => exact (congrArg BitVec.toNat ((s.setV x b).setV_get_self 15 flag)).trans hflag
  case result => rwa [Regs.get_setVThenFlag, if_neg hx, if_pos rfl]
  case others => rw [Regs.get_setVThenFlag, if_neg hr15, if_neg hrx]

/-- A flag decided by a proposition is 1 where it holds and 0 where it does not (R40). -/
theorem flagByte_decide_toNat (q : Prop) [Decidable q] : (flagByte (decide q)).toNat = if q then 1 else 0 := by
  simp only [flagByte_toNat, decide_eq_true_eq]

/-- Settles O28: the sum is that of 8-bit words, and the flag is the carry. -/
theorem addWritesSumThenCarry : Obligations.AddWritesSumThenCarry := fun x y s =>
  ⟨decodeWord_encode (.addReg x y), _, rfl, s.setVThenFlag_spec x (flagByte_decide_toNat _)
    (·.toNat = (s.v[x].toNat + s.v[y].toNat) % 256) (BitVec.toNat_add s.v[x] s.v[y])⟩

/-- The difference of two bytes gives the minuend back, modulo 256, when the subtrahend is added (R9). -/
theorem sub_toNat_add_toNat_mod (a b : Byte) : ((a - b).toNat + b.toNat) % 256 = a.toNat :=
  calc ((a - b).toNat + b.toNat) % 256
    _ = (a - b + b).toNat := (BitVec.toNat_add (a - b) b).symm
    _ = a.toNat := by rw [BitVec.sub_add_cancel]

/-- Settles O29: the two forms differ in which register is the minuend. -/
theorem subtractsWriteDifferenceThenNoBorrow : Obligations.SubtractsWriteDifferenceThenNoBorrow := fun x y s =>
  ⟨decodeWord_encode (.sub x y), decodeWord_encode (.subn x y),
    ⟨_, rfl, s.setVThenFlag_spec x (flagByte_decide_toNat _)
      (fun c => (c.toNat + s.v[y].toNat) % 256 = s.v[x].toNat) (sub_toNat_add_toNat_mod s.v[x] s.v[y])⟩,
    ⟨_, rfl, s.setVThenFlag_spec x (flagByte_decide_toNat _)
      (fun c => (c.toNat + s.v[x].toNat) % 256 = s.v[y].toNat) (sub_toNat_add_toNat_mod s.v[y] s.v[x])⟩⟩

/-- The bit a right shift drops is the remainder by 2 (R168). -/
theorem lsbFlag_toNat (a : Byte) : (lsbFlag a).toNat = a.toNat % 2 := by
  rw [lsbFlag, BitVec.getLsbD, Nat.testBit_zero, flagByte_decide_toNat]
  split <;> omega

/-- The bit a left shift drops is the quotient by 128 (R170). -/
theorem msbFlag_toNat (a : Byte) : (msbFlag a).toNat = a.toNat / 128 := by
  have hlt := a.isLt
  have hmsb : a.getLsbD 7 = decide (128 ≤ a.toNat) := BitVec.msb_eq_decide a
  rw [msbFlag, hmsb, flagByte_decide_toNat]
  split <;> omega

/-- Settles O30: a shift by one divides by 2, or doubles, and the flag is the bit that leaves the byte. -/
theorem shiftsWriteVxThenTheBitShiftedOut : Obligations.ShiftsWriteVxThenTheBitShiftedOut := by
  intro x y s
  have hright : (s.v[x] >>> 1).toNat = s.v[x].toNat / 2 := by rw [BitVec.toNat_ushiftRight, Nat.shiftRight_one]
  have hleft : (s.v[x] <<< 1).toNat = s.v[x].toNat * 2 % 256 := by rw [BitVec.toNat_shiftLeft, Nat.shiftLeft_eq]
  exact ⟨decodeWord_encode (.shr x y), decodeWord_encode (.shl x y),
    ⟨_, rfl, s.setVThenFlag_spec x (lsbFlag_toNat s.v[x]) (·.toNat = s.v[x].toNat / 2) hright⟩,
    ⟨_, rfl, s.setVThenFlag_spec x (msbFlag_toNat s.v[x]) (·.toNat = s.v[x].toNat * 2 % 256) hleft⟩⟩

end Sys2Proof.Machine
end

section
/-! The index register and memory: the loads of I, the decimal digits, and the block store and load (spec
43_index_memory.md). -/

namespace Sys2Proof.Machine

/-! ## The writers of I (R190 to R192) -/

/-- Settles O32: each of the three sets I alone; ADD I wraps at 16 bits, and five times a byte does not. -/
theorem indexLoadsWriteIOnly : Obligations.IndexLoadsWriteIOnly := by
  intro nnn x s
  have hsum : (s.i + zextByte s.v[x]).toNat = (s.i.toNat + s.v[x].toNat) % 65536 := by
    rw [BitVec.toNat_add, zextByte_toNat]
  exact ⟨decodeWord_encode (.ldI nnn), decodeWord_encode (.addIVx x), decodeWord_encode (.ldFVx x),
    ⟨s.setI (zextAddr nnn), rfl, zextAddr_toNat nnn, rfl⟩,
    ⟨s.setI (s.i + zextByte s.v[x]), rfl, hsum, rfl⟩,
    ⟨s.setI (5 * zextByte s.v[x]), rfl, five_mul_zextByte_toNat s.v[x], rfl⟩⟩

/-! ## The bytes of a block at I (R69, R71, R196) -/

/-- Where I + k is below a bound, the addresses of the block before it are too. -/
theorem State.indexed_lt_of_le {s : State} {j k n : Nat} (hj : j ≤ k) (hk : s.indexed k < n) : s.indexed j < n :=
  (Nat.add_le_add_left hj s.i.toNat).trans_lt hk

section
variable {s : State} {m : Memory} {bs : List Byte}
  (hm : ∀ a, Memory.get s.font m a = blockAfter s.font s.mem (s.indexed 0) bs a)
include hm

/-- The byte at I + k is the k-th byte of the block. -/
theorem State.readByte_indexed_of_stored {k : Nat} (hk : k < bs.length) (hr : s.indexed k < 0x1000) :
    State.readByte { s with mem := m } (s.indexed k) = .ok bs[k] :=
  (State.readByte_ok hr).trans (congrArg Except.ok ((hm _).trans (blockAfter_getElem s.mem (s.indexed 0) hk)))

/-- A read below I or from the block's end on gives what it gave before. -/
theorem State.readByte_outside_of_stored {a : Nat} (ha : a < s.indexed 0 ∨ s.indexed bs.length ≤ a) :
    State.readByte { s with mem := m } a = s.readByte a := by
  refine State.readByte_congr rfl ((hm a).trans (dif_neg ?_))
  simp only [State.indexed] at ha ⊢
  omega

end

/-! ## The decimal digits (R193) -/

/-- A number below 256 as a byte. -/
theorem byte_ofNat_toNat {n : Nat} (h : n < 256) : (BitVec.ofNat 8 n).toNat = n :=
  (BitVec.toNat_ofNat n 8).trans (Nat.mod_eq_of_lt h)

/-- Settles O34: the digits are the block stored, and each of them fits a byte. -/
theorem bcdStoresThreeDigits : Obligations.BcdStoresThreeDigits := by
  intro x s hs
  refine ⟨decodeWord_encode (.ldBVx x), ?_⟩
  rcases exec_ldBVx_cases x s with ⟨hr, m, he, hm⟩ | ⟨hr, he⟩
  · refine ⟨fun _ => ⟨_, he, ?_⟩, fun h => absurd hr (Nat.not_lt.2 h)⟩
    have hstored := (hm hs).2
    have hdigit (k : Fin 3) : State.readByte { s with mem := m } (s.indexed k.val) = .ok (decimalDigits s.v[x])[k.val] :=
      State.readByte_indexed_of_stored hstored k.isLt (State.indexed_lt_of_le (Nat.le_of_lt_succ k.isLt) hr)
    have hv := s.v[x].isLt
    exact ⟨⟨_, hdigit 0, byte_ofNat_toNat (by omega)⟩, ⟨_, hdigit 1, byte_ofNat_toNat (by omega)⟩,
      ⟨_, hdigit 2, byte_ofNat_toNat (by omega)⟩, fun _ => State.readByte_outside_of_stored hstored, rfl⟩
  · exact ⟨fun h => absurd h (Nat.not_lt.2 hr), fun _ => he⟩

/-! ## The block store and the block load (R194, R195) -/

/-- Settles O35: the block stored is the registers up to VX. -/
theorem storeBlockStoresV0ToVx : Obligations.StoreBlockStoresV0ToVx := by
  intro x s hs
  refine ⟨decodeWord_encode (.ldMemVx x), ?_⟩
  rcases exec_ldMemVx_cases x s with ⟨hr, m, he, hm⟩ | ⟨hr, he⟩
  · refine ⟨fun _ => ⟨_, he, fun k hk => ?block, fun a ha => ?outside, rfl⟩, fun h => absurd hr (Nat.not_lt.2 h)⟩
    case block =>
      have hlen : k.val < (takeBlock s.v x).length := by rw [takeBlock_length]; exact Nat.lt_succ_of_le hk
      rw [State.readByte_indexed_of_stored (hm hs).2 hlen (State.indexed_lt_of_le hk hr), takeBlock_getElem]
    case outside =>
      refine State.readByte_outside_of_stored (hm hs).2 ?_
      rwa [takeBlock_length]
  · exact ⟨fun h => absurd h (Nat.not_lt.2 hr), fun _ => he⟩

/-- A register up to VX after the block at I was loaded (R195). -/
theorem setBlock_blockAtI_of_le (s : State) {x k : Reg} (hk : k ≤ x) :
    (setBlock s.v 0 (blockAtI s (x.val + 1)))[k] = Memory.get s.font s.mem (s.indexed k.val) := by
  rw [Fin.le_def] at hk
  rw [setBlock_get, dif_pos (by rw [blockAtI_length]; omega), blockAtI_getElem, Nat.sub_zero]

/-- A register above VX after the block at I was loaded (R195). -/
theorem setBlock_blockAtI_of_lt (s : State) {x k : Reg} (hk : x < k) :
    (setBlock s.v 0 (blockAtI s (x.val + 1)))[k] = s.v[k] := by
  rw [Fin.lt_def] at hk
  rw [setBlock_get, dif_neg (by rw [blockAtI_length]; omega)]

/-- Settles O36: the registers up to VX are the block read, and those above it are kept. -/
theorem loadBlockLoadsV0ToVx : Obligations.LoadBlockLoadsV0ToVx := by
  intro x s
  refine ⟨decodeWord_encode (.ldVxMem x), ?_⟩
  rcases exec_ldVxMem_cases x s with ⟨hr, he⟩ | ⟨hr, he⟩
  · refine ⟨fun _ => ⟨_, he, fun k hk => ?block, fun k hk => setBlock_blockAtI_of_lt s hk, rfl⟩,
      fun h => absurd hr (Nat.not_lt.2 h)⟩
    case block =>
      exact (State.readByte_ok (State.indexed_lt_of_le hk hr)).trans
        (congrArg Except.ok (setBlock_blockAtI_of_le s hk).symm)
  · exact ⟨fun h => absurd h (Nat.not_lt.2 hr), fun _ => he⟩

/-- Settles O37: the load reads back into each register up to VX the byte the store took from it. -/
theorem loadAfterStoreChangesNothing : Obligations.LoadAfterStoreChangesNothing := by
  intro x s hs hr
  obtain ⟨-, hstore, -⟩ := storeBlockStoresV0ToVx x s hs
  obtain ⟨t, ht, hstored, -, hframe⟩ := hstore hr
  have hindexed : t.indexed = s.indexed := by rw [hframe]; rfl
  have hregs : t.v = s.v := by rw [hframe]
  obtain ⟨-, hload, -⟩ := loadBlockLoadsV0ToVx x t
  obtain ⟨u, hu, hloaded, habove, hframe'⟩ := hload (hindexed ▸ hr)
  have hreg : ∀ k : Reg, u.v[k] = t.v[k] := by
    intro k
    rcases le_or_gt k x with hk | hk
    · have hread : Except.ok u.v[k] = Except.ok s.v[k] := (hloaded k hk).symm.trans (hindexed ▸ hstored k hk)
      rw [hregs]
      exact Except.ok.inj hread
    · exact habove k hk
  have hv : u.v = t.v := Vector.ext fun k hk => hreg ⟨k, hk⟩
  have hut : u = t := by rw [hframe', hv]
  exact ⟨t, ht, hut ▸ hu⟩

end Sys2Proof.Machine
end

section
/-! The framebuffer: the clear, the cells a draw covers, the collision as a cell that went dark, and a sprite drawn twice
(spec 44_display.md). -/

namespace Sys2Proof.Machine

/-- Settles O40: every cell of the cleared screen is dark. -/
theorem clsClearsEveryCell : Obligations.ClsClearsEveryCell :=
  ⟨decodeWord_encode .cls, fun _ => ⟨_, rfl, fun k _ => clearScreen_cell (k % 64) (k / 64), rfl⟩⟩

/-! ## The cells a sprite covers (R212) -/

/-- The cell a sprite bit lands on, as an index of the framebuffer (R37, R212). -/
theorem Screen.index_wrap (fb : Screen) (x y : Nat) : fb.index (x % 64 + 64 * (y % 32)) = fb.cell x y := by
  rw [Screen.index_eq fb (Nat.mod_lt x (by decide)), Screen.cell_mod]

/-- A bit of the listed rows is a bit of the sprite at I (R212). -/
theorem spritePixel_blockAtI {s : State} {n r : Nat} (h : r < (blockAtI s n).length) (c : Nat) :
    spritePixel (blockAtI s n)[r] c = true ↔ s.SpriteBit r c := by
  rw [blockAtI_getElem, spritePixel, State.SpriteBit]

/-- The cells of the screen that the sprite at I covers (R212). -/
theorem covers_blockAtI_iff (s : State) (n x0 y0 : Nat) {x y : Nat} (hx : x < 64) (hy : y < 32) :
    Covers (blockAtI s n) x0 y0 x y ↔
      ∃ r < n, ∃ c < 8, s.SpriteBit r c ∧ (x0 + c) % 64 = x ∧ (y0 + r) % 32 = y := by
  simp only [Covers, spritePixel_blockAtI, blockAtI_length, Nat.mod_eq_of_lt hx, Nat.mod_eq_of_lt hy, exists_prop]

/-- A set bit of the sprite covers the cell it lands on (R212). -/
theorem Covers.of_spritePixel {rows : List Byte} {r c : Nat} (hr : r < rows.length) (hc : c < 8)
    (hp : spritePixel rows[r] c = true) (x0 y0 : Nat) : Covers rows x0 y0 (x0 + c) (y0 + r) :=
  ⟨r, hr, c, hc, hp, rfl, rfl⟩

/-! ## What one draw does (R211, R213, R214) -/

section
variable (fb : Screen) {rows : List Byte} (x0 y0 : Nat) (hrows : rows.length ≤ 32)
include hrows

/-- A draw inverts the cells the sprite covers and no other (R211). -/
theorem drawRows_cell (x y : Nat) : ((Canvas.mk fb false).drawRows x0 y0 rows).fb.cell x y = true ↔
    ¬ (fb.cell x y = true ↔ Covers rows x0 y0 x y) :=
  (Canvas.drawRows_spec x0 rows y0 hrows ⟨fb, false⟩).1 x y

/-- A draw from no collision collides exactly when a set bit lands on a lit cell (R213). -/
theorem drawRows_collided : ((Canvas.mk fb false).drawRows x0 y0 rows).collided = true ↔ Collides fb rows x0 y0 :=
  (Canvas.drawRows_spec x0 rows y0 hrows ⟨fb, false⟩).2.trans (or_iff_right Bool.false_ne_true)

/-- A set bit lands on a lit cell exactly when a cell goes from true to false (R213). -/
theorem collides_iff_cell_goes_dark : Collides fb rows x0 y0 ↔
    ∃ k < 2048, fb.index k = true ∧ ((Canvas.mk fb false).drawRows x0 y0 rows).fb.index k = false := by
  constructor
  · rintro ⟨r, hr, c, hc, hp, hlit⟩
    have hcov := Covers.of_spritePixel hr hc hp x0 y0
    refine ⟨(x0 + c) % 64 + 64 * ((y0 + r) % 32), by omega, ?_, ?_⟩
    · rwa [Screen.index_wrap]
    · rw [Screen.index_wrap, Bool.eq_false_iff, Ne, drawRows_cell fb x0 y0 hrows, not_not]
      exact iff_of_true hlit hcov
  · rintro ⟨k, -, hlit, hdark⟩
    rw [Screen.index, Bool.eq_false_iff, Ne, drawRows_cell fb x0 y0 hrows, not_not] at hdark
    obtain ⟨r, hr, c, hc, hp, hx, hy⟩ := hdark.1 hlit
    refine ⟨r, hr, c, hc, hp, ?_⟩
    rwa [← Screen.cell_mod, hx, hy, Screen.cell_mod]

/-- The same sprite drawn again inverts the same cells back (R211). -/
theorem drawRows_twice_fb :
    ((Canvas.mk ((Canvas.mk fb false).drawRows x0 y0 rows).fb false).drawRows x0 y0 rows).fb = fb := by
  refine Screen.ext_cell fun x y _ _ => Bool.eq_iff_iff.2 ?_
  rw [drawRows_cell _ x0 y0 hrows, drawRows_cell fb x0 y0 hrows]
  tauto

/-- The second draw of a sprite collides exactly where a set bit of it landed on a dark cell in the first (R213). -/
theorem collides_drawRows_iff : Collides ((Canvas.mk fb false).drawRows x0 y0 rows).fb rows x0 y0 ↔
    ∃ r, ∃ h : r < rows.length, ∃ c, c < 8 ∧ spritePixel rows[r] c = true ∧ fb.cell (x0 + c) (y0 + r) = false := by
  refine exists_congr fun r => exists_congr fun hr => exists_congr fun c => and_congr_right fun hc =>
    and_congr_right fun hp => ?_
  rw [drawRows_cell fb x0 y0 hrows, iff_true_right (Covers.of_spritePixel hr hc hp x0 y0), Bool.not_eq_true]

end

/-! ## The two outcomes of DRW (R211) -/

/-- What DRW draws: the N sprite rows at I, from (VX, VY), on the framebuffer (R211). -/
def State.drawn (s : State) (x y : Reg) (n : Fin 16) : Canvas :=
  (Canvas.mk s.fb false).drawRows s.v[x].toNat s.v[y].toNat (blockAtI s n.val)

/-- A sprite of DRW is no taller than the screen (R211). -/
theorem blockAtI_length_le (s : State) (n : Fin 16) : (blockAtI s n.val).length ≤ 32 := by
  rw [blockAtI_length]; omega

/-- The block at I is given by the font, the memory and I. -/
theorem blockAtI_congr {s s' : State} (hfont : s'.font = s.font) (hmem : s'.mem = s.mem) (hi : s'.i = s.i) (n : Nat) :
    blockAtI s' n = blockAtI s n := by
  simp only [blockAtI, State.indexed, hfont, hmem, hi]

/-- With its sprite in range DRW completes: the framebuffer and VF are what it draws, and nothing else changes. -/
theorem exec_drw_of_inRange (x y : Reg) {n : Fin 16} {s : State} (hr : n = 0 ∨ s.indexed n.val ≤ 0x1000) :
    ∃ t, exec (.drw x y n) s = .next t ∧ t.fb = (s.drawn x y n).fb ∧ t.v[15] = flagByte (s.drawn x y n).collided ∧
      (∀ r : Reg, r ≠ 15 → t.v[r] = s.v[r]) ∧ t = { s with v := t.v, fb := t.fb } := by
  rcases exec_drw_cases x y n s with ⟨-, he⟩ | ⟨hout, -⟩
  · exact ⟨_, he, rfl, (Regs.get_set s.v 15 15 _).trans (if_pos rfl),
      fun r hr => (Regs.get_set s.v 15 r _).trans (if_neg hr), rfl⟩
  · omega

/-- With its sprite out of range DRW fails (R211, R275). -/
theorem exec_drw_of_outOfRange (x y : Reg) {n : Fin 16} {s : State} (h0 : n ≠ 0) (hr : 0x1000 < s.indexed n.val) :
    exec (.drw x y n) s = .fault (.memoryOutOfRange (if 0x1000 ≤ s.i then s.i else 0x1000)) :=
  (exec_drw_cases x y n s).elim (fun ⟨hin, _⟩ => by omega) And.right

/-- Settles O41: the two outcomes of DRW; the one that completes inverts the covered cells, and collides exactly when a
cell goes dark. -/
theorem drwInvertsTheSpriteCellsAndReportsCollision : Obligations.DrwInvertsTheSpriteCellsAndReportsCollision := by
  intro x y n s
  refine ⟨decodeWord_encode (.drw x y n), fun hr => ?_, exec_drw_of_outOfRange x y⟩
  obtain ⟨t, he, hfb, hflag, hregs, hframe⟩ := exec_drw_of_inRange x y hr
  have hrows := blockAtI_length_le s n
  refine ⟨t, he, fun px py hx hy => ?cells, ?flag, ?collision, hregs, hframe⟩
  case cells =>
    rw [Screen.index_eq _ hx, Screen.index_eq _ hx, ← covers_blockAtI_iff s _ _ _ hx hy, hfb]
    exact drawRows_cell s.fb _ _ hrows px py
  case flag => exact hflag ▸ flagByte_zero_or_one _
  case collision =>
    rw [hflag, hfb, flagByte_eq_one]
    exact (drawRows_collided s.fb _ _ hrows).trans (collides_iff_cell_goes_dark s.fb _ _ hrows)

/-! ## A sprite drawn twice (R211, R213) -/

/-- Settles O42: the second draw is of the same rows at the same place, on the framebuffer the first left. -/
theorem drawingTwiceRestoresTheScreen : Obligations.DrawingTwiceRestoresTheScreen := by
  intro x y n s t ht s' hfb' hfont hmem hi hx hy
  have hrows := blockAtI_length_le s n
  have hr : n = 0 ∨ s.indexed n.val ≤ 0x1000 := by
    by_contra hout
    rw [exec_drw_of_outOfRange x y (by omega) (by omega)] at ht
    cases ht
  obtain ⟨t', he, hfb, -, -, hframe⟩ := exec_drw_of_inRange x y hr
  cases he.symm.trans ht
  have hi' : s'.i = s.i := by rw [hi, hframe]
  have hblock : blockAtI s' n.val = blockAtI s n.val :=
    blockAtI_congr (by rw [hfont, hframe]) (by rw [hmem, hframe]) hi' n.val
  have hdrawn : s'.drawn x y n =
      (Canvas.mk (s.drawn x y n).fb false).drawRows s.v[x].toNat s.v[y].toNat (blockAtI s n.val) := by
    rw [State.drawn, hblock, hfb', hfb, hx, hy]
  obtain ⟨u, he', hfbu, hflag, -, -⟩ := exec_drw_of_inRange x y (s := s') (by rwa [State.indexed, hi'])
  rw [hdrawn] at hfbu hflag
  refine ⟨u, he', hfbu.trans (drawRows_twice_fb s.fb _ _ hrows), hflag ▸ flagByte_zero_or_one _, ?collision⟩
  case collision =>
    rw [hflag, flagByte_eq_one, drawRows_collided _ _ _ hrows]
    refine (collides_drawRows_iff s.fb _ _ hrows).trans ?_
    simp only [spritePixel_blockAtI, blockAtI_length, Screen.index_wrap, exists_prop]

end Sys2Proof.Machine
end

section
/-! The keypad and the timers: the skips on a key, the wait for a key, and the moves of the timers (spec
45_keypad_timers.md). -/

namespace Sys2Proof.Machine

/-! ## The skips on a key (R230, R231) -/

/-- A byte that is the index of a key names that key. -/
theorem keyIndex_of_toNat_eq {b : Byte} {k : Reg} (h : b.toNat = k.val) : keyIndex b = .ok k := by
  have hlt : b.toNat < 16 := by omega
  exact (dif_pos hlt).trans (congrArg Except.ok (Fin.ext h))

/-- SKP of a key that exists skips where it is pressed. -/
theorem exec_skp_of_key {x k : Reg} {s : State} (h : s.v[x].toNat = k.val) :
    exec (.skp x) s = .next (s.skipIf s.key[k]) := by
  rw [exec, execSkp, State.reg_eq, keyIndex_of_toNat_eq h]

/-- SKNP of a key that exists skips where it is not pressed. -/
theorem exec_sknp_of_key {x k : Reg} {s : State} (h : s.v[x].toNat = k.val) :
    exec (.sknp x) s = .next (s.skipIf (!s.key[k])) := by
  rw [exec, execSknp, State.reg_eq, keyIndex_of_toNat_eq h]

/-- Settles O43: the key that VX names, or its negation, is the condition of the skip. -/
theorem keySkipsReadTheKeypad : Obligations.KeySkipsReadTheKeypad := by
  refine fun x s => ⟨decodeWord_encode (.skp x), decodeWord_encode (.sknp x),
    fun k hk => ⟨?skp, ?sknp⟩, fun hx => ?fails⟩
  case skp => exact ⟨_, exec_skp_of_key hk, s.skipIf_spec id id⟩
  case sknp => exact ⟨_, exec_sknp_of_key hk, s.skipIf_spec (congrArg not) (congrArg not)⟩
  case fails => exact ⟨(Fails.skp x hx).exec, (Fails.sknp x hx).exec⟩

/-! ## The wait for a key (R232, R236) -/

/-- With no key pressed FX0A moves PC back by 2 (R232). -/
theorem exec_ldVxK_of_none_pressed (x : Reg) {s : State} (h : ∀ k : Reg, s.key[k] = false) :
    exec (.ldVxK x) s = .next (s.setPc (s.pc - 2)) := by
  rw [exec, execLdVxK, lowestKey_eq_none.2 h]

/-- With a key pressed FX0A writes the lowest one to VX (R232). -/
theorem exec_ldVxK_of_lowest (x : Reg) {s : State} {k : Reg} (hk : s.key[k] = true)
    (hlow : ∀ j : Reg, j < k → s.key[j] = false) : exec (.ldVxK x) s = .next (s.setV x (BitVec.ofNat 8 k.val)) := by
  rw [exec, execLdVxK, lowestKey_eq_some.2 ⟨hk, hlow⟩]

/-- Settles O44: the two outcomes of FX0A, by the lowest pressed key; the index of a key fits in a byte. -/
theorem keyWaitRetriesOrTakesTheLowestKey : Obligations.KeyWaitRetriesOrTakesTheLowestKey := by
  refine fun x s => ⟨decodeWord_encode (.ldVxK x), fun hnone => ?retries, fun k hk hlow => ?takes⟩
  case retries => exact ⟨_, exec_ldVxK_of_none_pressed x hnone, rfl, rfl⟩
  case takes =>
    exact ⟨_, exec_ldVxK_of_lowest x hk hlow, s.setV_spec x (·.toNat = k.val) (byte_ofNat_toNat (by omega))⟩

/-- With any key pressed FX0A writes VX alone, so PC stays past it. -/
theorem exec_ldVxK_of_pressed (x : Reg) {s : State} {k : Reg} (hk : s.key[k] = true) :
    ∃ b, exec (.ldVxK x) s = .next (s.setV x b) := by
  rcases exec_ldVxK_cases x s with ⟨hnone, -⟩ | ⟨j, -, he⟩
  · exact absurd hk (by rw [hnone k]; decide)
  · exact ⟨_, he⟩

/-- The keypad after a key event (R254). -/
theorem keypress_key_get (k j : Reg) (p : Bool) (s : State) :
    (keypress k p s).key[j] = if j = k then p else s.key[j] := by
  simp only [keypress_key, Fin.getElem_fin, Vector.getElem_set, Fin.ext_iff, eq_comm]

/-- Settles O45: the retry takes PC back by what the fetch advanced it; timers and keys are no part of what is fetched,
so the same FX0A is fetched after each of the host's operations, and only a press can end the wait. -/
theorem awaitingKeyTickChangesNothing : Obligations.AwaitingKeyTickChangesNothing := by
  rintro s ⟨⟨x, op, hf, hd⟩, hnone⟩
  refine ⟨?waits, ⟨⟨x, op, hf, hd⟩, hnone⟩, fun k => ⟨⟨x, op, hf, hd⟩, fun j => ?released⟩, fun k => ?pressed⟩
  case waits =>
    rw [step_of_fetches hf hd, exec_ldVxK_of_none_pressed x (s := advancePc s) hnone, advancePc_pc, BitVec.add_sub_cancel]
    rfl
  case released =>
    rw [keypress_key_get, hnone j, ite_self]
  case pressed =>
    have hk : (advancePc (keypress k true s)).key[k] = true := (keypress_key_get k k true s).trans (if_pos rfl)
    obtain ⟨b, he⟩ := exec_ldVxK_of_pressed x hk
    exact ⟨_, (step_of_fetches (s := keypress k true s) hf hd).trans he, rfl⟩

/-! ## The timers (R233 to R235) -/

/-- Settles O46: the read of DT is a result in VX alone, and each write sets its timer alone. -/
theorem timerInstructionsMoveTheTimers : Obligations.TimerInstructionsMoveTheTimers := fun x s =>
  ⟨decodeWord_encode (.ldVxDt x), decodeWord_encode (.ldDtVx x), decodeWord_encode (.ldStVx x),
    ⟨_, rfl, s.setV_spec x (· = s.dt) rfl⟩,
    ⟨{ s with dt := s.v[x] }, rfl, rfl, rfl⟩,
    ⟨{ s with st := s.v[x] }, rfl, rfl, rfl⟩⟩

end Sys2Proof.Machine
end

section
/-! The host's operations: what load, tick_timers, keypress and the views do, and the invariant over every sequence of
admitted operations (spec 46_host_interface.md). -/

namespace Sys2Proof.Machine

section
variable {rom : List Byte} {s t : State}

/-! ## load (R251, R252) -/

/-- A ROM of at most 3584 bytes is loaded: only memory changes, to the ROM's block at 0x200, and stays canonical. -/
theorem load_of_fits (h : rom.length ≤ 3584) :
    ∃ m, load rom s = .ok { s with mem := m } ∧
      (s.MemWf → Memory.wf s.font m ∧ ∀ a, Memory.get s.font m a = blockAfter s.font s.mem 0x200 rom a) :=
  (load_cases rom s).elim And.right fun ⟨hlong, _⟩ => absurd h (Nat.not_le.2 hlong)

theorem load_of_tooLong (h : 3584 < rom.length) : load rom s = .error .romTooLarge :=
  (load_cases rom s).elim (fun ⟨hfits, _⟩ => absurd h (Nat.not_lt.2 hfits)) And.right

theorem applyOp_load_of_ok (h : load rom s = .ok t) : applyOp (.load rom) s = (t, .ok) := by
  rw [applyOp, h]

theorem applyOp_load_of_error {e : Fault} (h : load rom s = .error e) : applyOp (.load rom) s = (s, .err e) := by
  rw [applyOp, h]

section
variable {m : Memory} (hm : ∀ a, Memory.get s.font m a = blockAfter s.font s.mem 0x200 rom a)
include hm

/-- Byte j of a loaded ROM is read at 0x200 + j. -/
theorem State.readByte_of_loaded (hfits : rom.length ≤ 3584) {j : Nat} (hj : j < rom.length) :
    State.readByte { s with mem := m } (0x200 + j) = .ok rom[j] := by
  have hr : 0x200 + j < Config.memSize := by rw [memSize_eq]; omega
  exact (State.readByte_ok hr).trans (congrArg Except.ok ((hm _).trans (blockAfter_getElem s.mem 0x200 hj)))

/-- A read outside a loaded ROM, in range or not, gives what it gave before. -/
theorem State.readByte_outside_of_loaded {a : Nat} (ha : a < 0x200 ∨ 0x200 + rom.length ≤ a) :
    State.readByte { s with mem := m } a = s.readByte a :=
  State.readByte_congr rfl ((hm a).trans (dif_neg (by omega)))

end

/-- Settles O50: a ROM that fits is the block written at 0x200, and every read is inside or outside that block. -/
theorem loadCopiesTheRom : Obligations.LoadCopiesTheRom := by
  intro rom s hs hfits
  obtain ⟨m, hload, hm⟩ := load_of_fits (s := s) hfits
  obtain ⟨-, hstored⟩ := hm hs
  exact ⟨_, hload, applyOp_load_of_ok hload, fun _ => State.readByte_of_loaded hstored hfits,
    fun _ => State.readByte_outside_of_loaded hstored, rfl⟩

/-- Settles O51: the length is checked before anything is written, and an error leaves the state. -/
theorem longRomIsRejected : Obligations.LongRomIsRejected :=
  fun _ _ hlong => applyOp_load_of_error (load_of_tooLong hlong)

/-! ## tick_timers, keypress and the views (R253 to R256) -/

/-- A timer above zero goes down by one (R253). -/
theorem countDown_toNat_add_one {b : Byte} (h : 0 < b.toNat) : (countDown b).toNat + 1 = b.toNat := by
  rw [countDown_toNat, Nat.sub_add_cancel h]

/-- A timer at zero stays there (R253). -/
theorem countDown_toNat_of_zero {b : Byte} (h : b.toNat = 0) : (countDown b).toNat = 0 := by
  rw [countDown_toNat, h]

/-- Settles O53: each timer is counted down on its own. -/
theorem tickTimersCountsBothDown : Obligations.TickTimersCountsBothDown := fun s =>
  ⟨tickTimers s, rfl, countDown_toNat_add_one, countDown_toNat_of_zero, countDown_toNat_add_one,
    countDown_toNat_of_zero, rfl⟩

/-- Settles O54: the keypad after the event reads as the new value at the key and as before elsewhere. -/
theorem keypressSetsItsKeyOnly : Obligations.KeypressSetsItsKeyOnly := fun k p s =>
  ⟨keypress k p s, rfl, (keypress_key_get k k p s).trans (if_pos rfl),
    fun j hj => (keypress_key_get k j p s).trans (if_neg hj), rfl⟩

/-- The view holds at index k the framebuffer's `fb[k]` (R37, R255). -/
theorem display_getElem (s : State) (k : Fin 2048) : (display s)[k] = s.fb.index k.val :=
  Vector.getElem_ofFn k.isLt

/-- Settles O55: the view is the framebuffer by index, and cell (x, y) has the index x + 64·y. -/
theorem viewsReadAndChangeNothing : Obligations.ViewsReadAndChangeNothing := by
  refine fun s => ⟨⟨display s, rfl, fun x y hx _ k hk => ?_⟩, rfl⟩
  rw [display_getElem, hk, Screen.index_eq s.fb hx]

/-! ## The invariant over sequences of operations (R258) -/

/-- The reset operation gives the invariant from any state: it leaves a constructed core but for the count of draws. -/
theorem resetOp_inv (s : State) : (resetOp s).Inv :=
  have ⟨hmem, hstack, hpc⟩ := State.constructed_inv s.font
  ⟨hmem, hstack, hpc⟩

/-- A load that succeeds keeps the invariant: it writes memory alone, in its canonical form. -/
theorem load_inv (hs : s.Inv) (h : load rom s = .ok t) : t.Inv := by
  obtain ⟨hmem, hstack, hpc⟩ := hs
  rcases load_cases rom s with ⟨-, m, he, hm⟩ | ⟨-, he⟩ <;> cases he.symm.trans h
  exact ⟨(hm hmem).1, hstack, hpc⟩

/-- Every operation keeps the invariant, whether it succeeds or fails. -/
theorem applyOp_inv (op : HostOp) (hs : s.Inv) : (applyOp op s).1.Inv := by
  cases op with
  | reset => exact resetOp_inv s
  | load rom =>
    cases h : load rom s with
    | ok t => rw [applyOp_load_of_ok h]; exact load_inv hs h
    | error e => rw [applyOp_load_of_error h]; exact hs
  | tick =>
    rw [applyOp]
    cases h : step s with
    | next t => exact stepKeepsTheInvariant s t hs h
    | fault e => exact hs
    | refused r => exact hs
  | tickTimers | keypress =>
    obtain ⟨hmem, hstack, hpc⟩ := hs
    exact ⟨hmem, hstack, hpc⟩
  | display | sound => exact hs

end

/-- An admitted operation of a session is that operation on its machine. -/
theorem Session.apply_machine {op : HostOp} {c c' : Session} {r : HostResult} (h : Session.apply op c = some (c', r)) :
    c'.machine = (applyOp op c.machine).1 := by
  rw [Session.apply] at h
  split at h <;> cases h
  rfl

/-- What every operation keeps, every sequence of admitted operations keeps. -/
theorem Session.run_induction {P : State → Prop} (hop : ∀ op s, P s → P (applyOp op s).1) {ops : List HostOp}
    {c c' : Session} (hc : P c.machine) (h : Session.run ops c = some c') : P c'.machine := by
  induction ops generalizing c with
  | nil => cases h; exact hc
  | cons op ops ih =>
    rw [Session.run] at h
    cases ha : Session.apply op c with
    | none => rw [ha] at h; cases h
    | some out =>
      obtain ⟨c₁, r⟩ := out
      rw [ha] at h
      exact ih (Session.apply_machine ha ▸ hop op c.machine hc) h

/-- Settles O18: each operation keeps the invariant, so every sequence of them does. -/
theorem hostOperationsKeepTheInvariant : Obligations.HostOperationsKeepTheInvariant :=
  fun _ _ _ => Session.run_induction fun op _ => applyOp_inv op

end Sys2Proof.Machine
end

section
/-! The exceptions: the errors of the execute step, the illegal word, and the run that ends at its first failed tick
(spec 60_exceptions.md). -/

namespace Sys2Proof.Machine

/-! ## The errors of the execute step (R273 to R278) -/

/-- No instruction is refused: each has a meaning (R93, R123). -/
theorem exec_ne_refused (i : Instr) (s : State) (r : Refusal) : exec i s ≠ .refused r := by
  intro h
  cases i with
  | ret => rcases exec_ret_cases s with ⟨k, -, he⟩ | ⟨-, he⟩ <;> cases he.symm.trans h
  | call nnn => rcases exec_call_cases nnn s with ⟨k, -, he⟩ | ⟨-, he⟩ <;> cases he.symm.trans h
  | skp x => rcases exec_skp_cases x s with ⟨k, -, he⟩ | ⟨-, he⟩ <;> cases he.symm.trans h
  | sknp x => rcases exec_sknp_cases x s with ⟨k, -, he⟩ | ⟨-, he⟩ <;> cases he.symm.trans h
  | ldVxK x => rcases exec_ldVxK_cases x s with ⟨-, he⟩ | ⟨k, -, he⟩ <;> cases he.symm.trans h
  | drw x y n => rcases exec_drw_cases x y n s with ⟨-, he⟩ | ⟨-, he⟩ <;> cases he.symm.trans h
  | ldBVx x => rcases exec_ldBVx_cases x s with ⟨-, m, he, -⟩ | ⟨-, he⟩ <;> cases he.symm.trans h
  | ldMemVx x => rcases exec_ldMemVx_cases x s with ⟨-, m, he, -⟩ | ⟨-, he⟩ <;> cases he.symm.trans h
  | ldVxMem x => rcases exec_ldVxMem_cases x s with ⟨-, he⟩ | ⟨-, he⟩ <;> cases he.symm.trans h
  | _ => cases h

/-- Settles O49: an instruction that ends in an error fails in one of the ways of `Fails`, and each of these is a named one. -/
theorem executeErrorsAreExactlyTheNamedOnes : Obligations.ExecuteErrorsAreExactlyTheNamedOnes := by
  refine fun i s => ⟨fun e => ⟨fun hexec => ?only, fun hnamed => ?each⟩, exec_ne_refused i s⟩
  case only =>
    cases fails_of_exec hexec with
    | ret h => exact .inl ⟨rfl, Fin.ext h, rfl⟩
    | call nnn h => exact .inr (.inl ⟨nnn, rfl, h, rfl⟩)
    | skp x h => exact .inr (.inr (.inl ⟨x, .inl rfl, h, rfl⟩))
    | sknp x h => exact .inr (.inr (.inl ⟨x, .inr rfl, h, rfl⟩))
    | drw x y n h => exact .inr (.inr (.inr ⟨n, .inl ⟨⟨x, y, rfl⟩, Fin.pos_iff_ne_zero.1 h.1, h.2⟩, rfl⟩))
    | ldBVx x h => exact .inr (.inr (.inr ⟨2, .inr (.inl ⟨⟨x, rfl⟩, rfl, h⟩), rfl⟩))
    | ldMemVx x h => exact .inr (.inr (.inr ⟨x, .inr (.inr ⟨.inl rfl, h⟩), rfl⟩))
    | ldVxMem x h => exact .inr (.inr (.inr ⟨x, .inr (.inr ⟨.inr rfl, h⟩), rfl⟩))
  case each =>
    rcases hnamed with ⟨rfl, h, rfl⟩ | ⟨nnn, rfl, h, rfl⟩ | ⟨x, rfl | rfl, h, rfl⟩ |
      ⟨n, ⟨⟨x, y, rfl⟩, hn, h⟩ | ⟨⟨x, rfl⟩, rfl, h⟩ | ⟨rfl | rfl, h⟩, rfl⟩
    · exact (Fails.ret (Fin.val_eq_of_eq h)).exec
    · exact (Fails.call nnn h).exec
    · exact (Fails.skp x h).exec
    · exact (Fails.sknp x h).exec
    · exact (Fails.drw x y n ⟨Fin.pos_iff_ne_zero.2 hn, h⟩).exec
    · exact (Fails.ldBVx x h).exec
    · exact (Fails.ldMemVx n h).exec
    · exact (Fails.ldVxMem n h).exec

/-! ## The illegal word (R272) -/

/-- Settles O9: the decoder rejects a word that matches no row, and the tick fails with the word it fetched. -/
theorem illegalWordFaultsWithTheWord : Obligations.IllegalWordFaultsWithTheWord := fun _ op hf hno =>
  have ⟨_, _, hrejected⟩ := decoderFollowsTheOpcodeTable op
  step_of_illegal hf (hrejected hno)

/-! ## The end of a run (R280) -/

section
variable {op : HostOp} {c : Session}

/-- A tick is not admitted once an error is recorded. -/
theorem Session.apply_tick_of_recorded (h : c.record.isSome) : Session.apply .tick c = none :=
  if_pos ⟨rfl, h⟩

/-- An operation that is no tick, or comes before any error is recorded, is admitted: it runs on the machine, and the record follows. -/
theorem Session.apply_of_admitted (h : op = .tick → c.record = none) {t : State} {r : HostResult}
    (ha : applyOp op c.machine = (t, r)) : Session.apply op c = some (⟨t, nextRecord op r c.record⟩, r) := by
  have hadmitted : ¬ (op = .tick ∧ c.record.isSome) := fun ⟨htick, hsome⟩ => by simp [h htick] at hsome
  rw [Session.apply, if_neg hadmitted, ha]

/-- Only a tick and a reset change the record (R280, log entry 3). -/
theorem nextRecord_of_ne (hreset : op ≠ .reset) (htick : op ≠ .tick) (r : HostResult) (record : Option Fault) :
    nextRecord op r record = record := by
  cases op with
  | reset => exact absurd rfl hreset
  | tick => exact absurd rfl htick
  | _ => rfl

end

/-- Settles O56: once an error is recorded no tick is admitted, and no admitted operation but a reset changes the record. -/
theorem runEndsAtItsFirstFailedTick : Obligations.RunEndsAtItsFirstFailedTick := by
  refine fun c => ⟨fun e hnone hfault => ?failed, fun e hrecord => ?recorded, .none, ?reset⟩
  case failed =>
    obtain ⟨hsame, -⟩ := failedTickChangesNothingAndRepeats c.machine e hfault
    exact Session.apply_of_admitted (fun _ => hnone) hsame
  case recorded =>
    have hno : Session.apply .tick c = none := Session.apply_tick_of_recorded (by rw [hrecord]; rfl)
    refine ⟨hno, fun op c' r hreset happly => ?_⟩
    have htick : op ≠ .tick := by
      rintro rfl
      cases hno.symm.trans happly
    cases (Session.apply_of_admitted (fun h => absurd h htick) rfl).symm.trans happly
    exact (nextRecord_of_ne hreset htick _ _).trans hrecord
  case reset => exact Session.apply_of_admitted (op := .reset) nofun rfl

end Sys2Proof.Machine
end

section
/-! Reset and reload: what a reset keeps, the tick right after it, and a load after it (spec 70_reset_and_hazards.md). -/

namespace Sys2Proof.Machine

section
variable {s s' : State}

/-! ## The reset operation (R301, R303) -/

/-- A reset depends on the count of draws and the font alone (R301). -/
theorem resetOp_congr (hdraws : s.draws = s'.draws) (hfont : s.font = s'.font) : resetOp s = resetOp s' := by
  rw [resetOp, resetOp, hdraws, hfont]

/-- Memory after a reset reads as zeros from the font's end on (R42). -/
theorem resetOp_readByte_zero {a : Nat} (h : 0x50 ≤ a) (hlt : a < 0x1000) : (resetOp s).readByte a = .ok 0 :=
  State.constructed_readByte_zero s.font h hlt

/-- With nothing loaded since the reset, the word at PC is 0x0000 (R305). -/
theorem resetOp_fetchesWord (s : State) : (resetOp s).FetchesWord 0x0000 := by
  have hzero {a : Nat} (h : 80 ≤ a) : Memory.get (resetOp s).font (resetOp s).mem a = 0 := resetByte_zero h
  have hpc : (resetOp s).pc.toNat = 0x200 := rfl
  refine ⟨by rw [hpc, memSize_eq]; omega, ?_⟩
  rw [hpc, hzero (by omega), hzero (by omega)]
  rfl

/-- The tick right after a reset fails on that word, which is no instruction (R305). -/
theorem step_resetOp (s : State) : step (resetOp s) = .fault (.unknownOpcode 0x0000) :=
  step_of_illegal (resetOp_fetchesWord s) rfl

end

/-- Settles O15: a reset keeps only the font and the draws it depends on, and the word at its PC is illegal. -/
theorem resetOperationForgetsTheState : Obligations.ResetOperationForgetsTheState := fun s _ =>
  have ⟨hfails, _⟩ := failedTickChangesNothingAndRepeats (resetOp s) _ (step_resetOp s)
  ⟨resetOp_congr rfl rfl, resetOp_congr, hfails⟩

section
variable {rom : List Byte} {s t : State}

/-! ## A load after a reset (R302, R305) -/

/-- A ROM that is loaded fits, and its load changes memory alone (R251). -/
theorem load_ok (h : load rom s = .ok t) : rom.length ≤ 3584 ∧ ∃ m, t = { s with mem := m } := by
  rcases load_cases rom s with ⟨hfits, m, he, -⟩ | ⟨-, he⟩ <;> cases he.symm.trans h
  exact ⟨hfits, m, rfl⟩

/-- Nothing of a load is left after a reset. -/
theorem resetOp_of_load (h : load rom s = .ok t) : resetOp t = resetOp s := by
  obtain ⟨-, m, rfl⟩ := load_ok h
  exact resetOp_congr rfl rfl

end

/-- Settles O52: the reset forgets the first load, so the second one loads on a constructed core, where the ROM is read
at 0x200 and the bytes above it are those of reset. -/
theorem reloadAfterResetIsASingleLoad : Obligations.ReloadAfterResetIsASingleLoad := by
  intro rom s t hload
  obtain ⟨hfits, -⟩ := load_ok hload
  obtain ⟨u, hreload, -, hrom, hkept, -⟩ := loadCopiesTheRom rom (resetOp s) (resetOp_inv s).mem_wf hfits
  refine ⟨u, resetOp_of_load hload ▸ hreload, hreload, hrom, fun a ha hlt => ?_⟩
  exact (hkept a (.inr ha)).trans (resetOp_readByte_zero (by omega) hlt)

end Sys2Proof.Machine
end
